-- ==== Sys2Proof/Word.lean ====
section
/-!
DEFINITION. The plain data of the core: chips, nibbles, bytes and the request word.
-/

namespace Sys2Proof

/-- One chip: one binary digit of the data handed to the radio (00_scope.md R7, R12). -/
abbrev Chip := Bool

/-- A 4-logical-bit value `v[3:0]` (00_scope.md R8). -/
abbrev Nibble := BitVec 4

/-- One byte, an unsigned value 0 to 255 (20_memory.md R39). -/
abbrev Byte := BitVec 8

/-- The 13-bit request word REQ (30_encoding.md R64). -/
abbrev ReqWord := BitVec 13

end Sys2Proof
end

