-- ==== Sys2Proof/Config.lean ====
section
/-!
DEFINITION. What the deployment fixes (00_scope.md R6, 10_state.md R27) and what the environment
decides (00_scope.md R10).
-/

namespace Sys2Proof

/-- What is done with the 7-chip tail of the packet (00_scope.md R6, 41_packet_encoder.md R86). -/
inductive PadPolicy where
  | zeroPad
  | raw7
deriving DecidableEq, Repr, Inhabited

/-- The receiver profile (00_scope.md R6, 30_encoding.md R70). -/
inductive Profile where
  | single
  | dual
deriving DecidableEq, Repr, Inhabited

/-- The three read-only configuration registers `CFG.PAD_POLICY`, `CFG.PROFILE`, `CFG.FREQ_HZ`
(10_state.md R27). -/
structure Cfg where
  padPolicy : PadPolicy
  profile   : Profile
  freqHz    : Nat
deriving DecidableEq, Repr, Inhabited

/-- The radio's answer to one call (00_scope.md R10). -/
inductive RadioAnswer where
  | ok
  | fail
deriving DecidableEq, Repr, Inhabited

/-- The configured receiver profile. OPEN in the spec, no default (92_eei_decisions.md D7): an
uninterpreted constant, log 1. -/
opaque Config.profile : Profile

/-- The configured carrier frequency. OPEN in the spec, no default (92_eei_decisions.md D8): an
uninterpreted constant, log 1. -/
opaque Config.freqHz : Nat

/-- The pad policy of this hardware: `ZERO_PAD` (00_scope.md R6, 92_eei_decisions.md D6). -/
def Config.padPolicy : PadPolicy := .zeroPad

/-- The configuration in place when reset is released (70_reset_and_hazards.md R150). -/
def Config.cfg : Cfg :=
  { padPolicy := Config.padPolicy, profile := Config.profile, freqHz := Config.freqHz }

/-- The answers the radio gives from reset on: the environment's free choice (00_scope.md R10), an
uninterpreted constant, log 3 (DESIGN CHOICE). -/
opaque Config.radioAnswers : List RadioAnswer

end Sys2Proof
end

