-- ==== Sys2Proof/Machine/Radio.lean ====
section
/-!
DEFINITION. The radio port: its nine operations and the record of one call
(30_encoding.md R77, 60_exceptions.md R141, 10_state.md R31).
-/

namespace Sys2Proof.Machine

/-- The argument of `setModulation`: an opaque enumeration with one value (30_encoding.md R77). Log 12. -/
inductive Modulation where
  | amOnOffKeying
deriving DecidableEq, Repr

/-- The argument of `setSyncMode`: an opaque enumeration with one value (30_encoding.md R77). Log 12. -/
inductive SyncMode where
  | none
deriving DecidableEq, Repr

/-- One call on the radio port with its arguments (60_exceptions.md R141). -/
inductive RadioOp where
  | setFrequency (hz : Nat)
  | setMaxPower
  | setModulation (mode : Modulation)
  | setDataRate (baud : Nat)
  | setFixedFrameLength (bytes : Nat)
  | setSyncMode (mode : SyncMode)
  | transmitRaw (bytes : List Byte)
  | setIdle
  | cleanup
deriving DecidableEq, Repr

/-- One line of the radio trace: operation, arguments, answer (10_state.md R31). -/
structure RadioCall where
  op     : RadioOp
  answer : RadioAnswer
deriving DecidableEq, Repr

end Sys2Proof.Machine
end

