-- ==== Sys2Proof/Machine/State.lean ====
section
/-!
DEFINITION. The state of the core, its value after reset, and the reasons a step can stop
(10_state.md R13 to R36).
-/

namespace Sys2Proof.Machine

/-- The sequencer register `PHASE`, in place of a program counter (10_state.md R20). -/
inductive Phase where
  | idle
  | decode
  | build
  | cfgFreq
  | cfgPower
  | cfgMod
  | cfgRate
  | cfgLen
  | cfgSync
  | frame
  | tx
  | tdIdle
  | tdCleanup
deriving DecidableEq, Repr

/-- A byte-addressed buffer: (address, byte) cells, addresses strictly rising. An address that is not
listed holds no value (10_state.md R19, 20_memory.md R39; log 2). -/
abbrev Memory := List Host.Cell

/-- The two buffers of the byte space (20_memory.md R37 (c)). -/
inductive Buf where
  | pay
  | frame
deriving DecidableEq, Repr

/-- The registers that can hold no value and that some step reads (10_state.md R19). -/
inductive ValueReg where
  | hp
  | sw8
  | sw9
  | cmd
  | buf (b : Buf)
deriving DecidableEq, Repr

/-- The exceptions of the core with their information (60_exceptions.md R123). -/
inductive Exception where
  | invalidCommand (cmd : Nibble)
  | radioConfigurationError (index : BitVec 4)
  | transmitError (attempt : BitVec 4)
  | teardownError (call : BitVec 4)
deriving DecidableEq, Repr

/-- The whole state. The first four groups are the core's registers (10_state.md R13), then the
configuration (R27), the radio trace and the call being waited on (R31, R21), and last the model's own
fields: the inputs of the host and of the radio (R14; log 3, log 5, log 6). The host reads `busy`, `done`,
`errf`, `cause`, `einfo` and nothing else (R32; `hostRead` in Machine/HostPort.lean). -/
structure State where
  /-- `HP` (R15); `none` is the spec's "no value" (R19, log 2), as in the six fields
  that follow. -/
  hp          : Option Bool
  /-- `SW8` (R15) -/
  sw8         : Option Nibble
  /-- `SW9` (R15) -/
  sw9         : Option Nibble
  /-- `CMD` (R15) -/
  cmd         : Option Nibble
  /-- `SYM`, chip index 0 leftmost (R16) -/
  sym         : Option (Vector Chip 39)
  /-- `PAY[0..4]` (R17); an unlisted byte holds no value -/
  pay         : Memory
  /-- `FRAME[0..9]` (R18); an unlisted byte holds no value -/
  frame       : Memory
  /-- `PHASE` (R20) -/
  phase       : Phase
  /-- `REP` (R22) -/
  rep         : BitVec 4
  /-- `BUSY` (R23); read by the host (R32) -/
  busy        : Bool
  /-- `DONE` (R23); read by the host (R32) -/
  done        : Bool
  /-- `ERRF` (R23); read by the host (R32) -/
  errf        : Bool
  /-- `CAUSE` (R24); read by the host (R32) -/
  cause       : BitVec 3
  /-- `EINFO` (R25); read by the host (R32) -/
  einfo       : BitVec 4
  /-- `HELD` (R26); internal -/
  held        : Bool
  /-- `CFG.PAD_POLICY`, `CFG.PROFILE`, `CFG.FREQ_HZ` (R27) -/
  cfg         : Cfg
  /-- The radio trace, oldest call first (R31). -/
  trace       : List RadioCall
  /-- The radio call that has been made and not answered (R21, last row; log 4). -/
  outstanding : Option RadioOp
  /-- The words the host presents: now the head, then the rest (log 5). -/
  requests    : List ReqWord
  /-- The host asserts reset (70_reset_and_hazards.md R147; log 6). -/
  resetIn     : Bool
  /-- The radio's answers to the coming calls: a free value (log 3). -/
  answers     : List RadioAnswer
deriving DecidableEq, Repr

/-- Every register after reset (10_state.md R34). -/
def State.reset : State where
  hp := none
  sw8 := none
  sw9 := none
  cmd := none
  sym := none
  pay := []
  frame := []
  phase := .idle
  rep := 0#4
  busy := false
  done := false
  errf := false
  cause := 0#3
  einfo := 0#4
  held := false
  cfg := Config.cfg
  trace := []
  outstanding := none
  requests := []
  resetIn := false
  answers := Config.radioAnswers

/-- Why the machine stops with a fault. All are safe: the model stops where the spec gives no step. -/
inductive Fault where
  /-- A step reads a register that holds no value (10_state.md R19, 93_implementation_defined.md U17).
  Raised by the register reads and by `memRead`. Safe; no reachable state raises it. -/
  | noValue (r : ValueReg)
  /-- `MemRead` or `MemWrite` outside the buffer (20_memory.md R39). Raised by `memRead` and `memWrite`.
  Safe; no rule makes such an access. Log 9. -/
  | outsideBuffer (b : Buf)
  /-- TX with `REP` of 8 or more, where the precondition of 42_transmission_driver.md R107 does not hold.
  Raised by `stepTx`. Safe; no reachable state raises it. Log 9. -/
  | noTxRule
deriving DecidableEq, Repr

/-- Why the machine refuses a step. -/
inductive Refusal where
  /-- The instruction has no meaning yet. Raised by `exec`'s refused arms only, of which there are none.
  Safe. -/
  | notModelled (mnemonic : String)
  /-- Reset asserted while `PHASE` is not `IDLE`: outside the spec (70_reset_and_hazards.md R149,
  93_implementation_defined.md U7 "refuse"). Raised by `stepReset`. Safe. -/
  | resetWhileBusy
deriving DecidableEq, Repr

/-- The outcome of a step of this machine. -/
abbrev Result := Host.Outcome State Fault Refusal

end Sys2Proof.Machine
end

