-- ==== Sys2Proof/Machine/Flags.lean ====
section
/-!
DEFINITION. The status flags `BUSY`, `DONE`, `ERRF`: the two steps that write them
(10_state.md R23).
-/

namespace Sys2Proof.Machine

/-- The flags after ACCEPT (42_transmission_driver.md R97). -/
def flagsAccepted (s : State) : State :=
  { s with done := false, errf := false, busy := true }

/-- The flags after completion with the final cause `c` (42_transmission_driver.md R111). -/
def flagsCompleted (c : BitVec 3) (s : State) : State :=
  { s with errf := c != 0#3, done := true, busy := false }

end Sys2Proof.Machine
end

