-- ==== Sys2Proof/Syntax.lean ====
section
/-!
DEFINITION. The instructions: one constructor per row of spec/opcode_table.json.
-/

namespace Sys2Proof

/-- The seven commands (43_commands.md R116 to R122). Each carries the operands of its request word:
`HP`, `SW8`, `SW9` (30_encoding.md R64). -/
inductive Instr where
  /-- 43_commands.md R116 -/
  | off (hp : Bool) (sw8 sw9 : Nibble)
  /-- 43_commands.md R117 -/
  | slow (hp : Bool) (sw8 sw9 : Nibble)
  /-- 43_commands.md R118 -/
  | medium (hp : Bool) (sw8 sw9 : Nibble)
  /-- 43_commands.md R119 -/
  | fast (hp : Bool) (sw8 sw9 : Nibble)
  /-- 43_commands.md R120 -/
  | light (hp : Bool) (sw8 sw9 : Nibble)
  /-- 43_commands.md R121 -/
  | light1 (hp : Bool) (sw8 sw9 : Nibble)
  /-- 43_commands.md R122 -/
  | light2 (hp : Bool) (sw8 sw9 : Nibble)
deriving DecidableEq, Repr

end Sys2Proof
end

