-- ==== Sys2Proof/WellFormed.lean ====
section
/-!
DEFINITION. Which instructions exist under which receiver profile.
-/

namespace Sys2Proof

/-- The command exists under the profile: the column "in profile" of 20_memory.md R38. Every operand
value is legal (30_encoding.md R69), so nothing else is checked. -/
def Instr.wf (p : Profile) : Instr → Bool
  | .off _ _ _ => true
  | .slow _ _ _ => true
  | .medium _ _ _ => true
  | .fast _ _ _ => true
  | .light _ _ _ => p == .single
  | .light1 _ _ _ => p == .dual
  | .light2 _ _ _ => p == .dual

end Sys2Proof
end

