-- ==== Sys2Proof/Decode.lean ====
section
/-!
DEFINITION. The command table, the decoder of request words and the encoder
(30_encoding.md R64 to R70, R75; 20_memory.md R38).
-/

namespace Sys2Proof

/-! ### The fields of the request word (30_encoding.md R64) -/

/-- `HP = REQ[12]`. -/
def reqHp (w : ReqWord) : Bool := w.getLsbD 12

/-- `SW8 = REQ[11:8]`. -/
def reqSw8 (w : ReqWord) : Nibble := w.extractLsb' 8 4

/-- `SW9 = REQ[7:4]`. -/
def reqSw9 (w : ReqWord) : Nibble := w.extractLsb' 4 4

/-- `CMD = REQ[3:0]`, the opcode (30_encoding.md R66). -/
def reqCmd (w : ReqWord) : Nibble := w.extractLsb' 0 4

/-- The request word with the given fields, `HP` uppermost (30_encoding.md R64). -/
def packReq (hp : Bool) (sw8 sw9 cmd : Nibble) : ReqWord :=
  BitVec.ofBool hp ++ sw8 ++ sw9 ++ cmd

/-! ### The command table -/

/-- One entry of `CMDTAB`: the 4-bit value, the 12 chips as a number, and the profiles it exists in
(20_memory.md R38). -/
structure CmdEntry where
  value    : Nibble
  chips    : BitVec 12
  inSingle : Bool
  inDual   : Bool
deriving DecidableEq, Repr

/-- Whether the entry exists under the profile. -/
def CmdEntry.inProfile (e : CmdEntry) : Profile → Bool
  | .single => e.inSingle
  | .dual => e.inDual

/-- `CMDTAB`, row by row in the order OFF, SLOW, MEDIUM, FAST, LIGHT, LIGHT1, LIGHT2
(20_memory.md R38). -/
def cmdTable : List CmdEntry :=
  [ { value := 0b1010#4, chips := 0b110010110010#12, inSingle := true,  inDual := true },
    { value := 0b0010#4, chips := 0b010010110010#12, inSingle := true,  inDual := true },
    { value := 0b0100#4, chips := 0b010110010010#12, inSingle := true,  inDual := true },
    { value := 0b1000#4, chips := 0b110010010010#12, inSingle := true,  inDual := true },
    { value := 0b0101#4, chips := 0b010110010110#12, inSingle := true,  inDual := false },
    { value := 0b0101#4, chips := 0b010110010110#12, inSingle := false, inDual := true },
    { value := 0b1001#4, chips := 0b110010010110#12, inSingle := false, inDual := true } ]

/-- `CMD ∈ VALID(PROFILE)` (20_memory.md R38). -/
def validCmd (p : Profile) (c : Nibble) : Bool :=
  cmdTable.any fun e => e.value == c && e.inProfile p

/-! ### Decoding -/

/-- Why a word is no instruction. -/
inductive DecodeReject where
  /-- `CMD` is not in `VALID(PROFILE)`: illegal, `InvalidCommand(cmd)` (30_encoding.md R68, R75). -/
  | invalidCommand (cmd : Nibble)
  /-- The number does not fit the 13 bits of REQ (30_encoding.md R64). -/
  | tooWide
deriving DecidableEq, Repr

/-- `decode(REQ, PROFILE)` (30_encoding.md R75), the mnemonic by R66. `0101` is LIGHT under `SINGLE`
and LIGHT1 under `DUAL`; `1001` is LIGHT2 under `DUAL` and illegal under `SINGLE`. -/
def decode (p : Profile) (w : ReqWord) : Except DecodeReject Instr :=
  let hp := reqHp w
  let a := reqSw8 w
  let b := reqSw9 w
  let c := reqCmd w
  if c = 0b1010#4 then .ok (.off hp a b)
  else if c = 0b0010#4 then .ok (.slow hp a b)
  else if c = 0b0100#4 then .ok (.medium hp a b)
  else if c = 0b1000#4 then .ok (.fast hp a b)
  else if c = 0b0101#4 then
    match p with
    | .single => .ok (.light hp a b)
    | .dual => .ok (.light1 hp a b)
  else if c = 0b1001#4 then
    match p with
    | .single => .error (.invalidCommand c)
    | .dual => .ok (.light2 hp a b)
  else .error (.invalidCommand c)

/-- `decode` on a number: one that does not fit 13 bits is no request word. -/
def decodeNat (p : Profile) (n : Nat) : Except DecodeReject Instr :=
  if n < 8192 then decode p (BitVec.ofNat 13 n) else .error .tooWide

/-! ### Encoding -/

/-- `HP` of a command. -/
def Instr.hp : Instr → Bool
  | .off hp _ _ | .slow hp _ _ | .medium hp _ _ | .fast hp _ _
  | .light hp _ _ | .light1 hp _ _ | .light2 hp _ _ => hp

/-- `SW8` of a command. -/
def Instr.sw8 : Instr → Nibble
  | .off _ a _ | .slow _ a _ | .medium _ a _ | .fast _ a _
  | .light _ a _ | .light1 _ a _ | .light2 _ a _ => a

/-- `SW9` of a command. -/
def Instr.sw9 : Instr → Nibble
  | .off _ _ b | .slow _ _ b | .medium _ _ b | .fast _ _ b
  | .light _ _ b | .light1 _ _ b | .light2 _ _ b => b

/-- The 4-logical-bit value of a command (43_commands.md R116 to R122). -/
def Instr.cmd : Instr → Nibble
  | .off _ _ _ => 0b1010#4
  | .slow _ _ _ => 0b0010#4
  | .medium _ _ _ => 0b0100#4
  | .fast _ _ _ => 0b1000#4
  | .light _ _ _ => 0b0101#4
  | .light1 _ _ _ => 0b0101#4
  | .light2 _ _ _ => 0b1001#4

/-- The request word of a command (30_encoding.md R64, R67). -/
def encode (i : Instr) : ReqWord := packReq i.hp i.sw8 i.sw9 i.cmd

/-! ### The opcode table's words -/

/-- The profile under which a word is read as a row of spec/opcode_table.json: `0101` stands in the
table twice (LIGHT under `SINGLE`, LIGHT1 under `DUAL`; 30_encoding.md R67) and is read as LIGHT,
`1001` is a row under `DUAL` only; every other word reads the same under both and keeps `p`. Log 8. -/
def tableProfile (p : Profile) (w : ReqWord) : Profile :=
  if reqCmd w = 0b0101#4 then .single
  else if reqCmd w = 0b1001#4 then .dual
  else p

/-- The instruction the decoder reads from the bits `w`, numbered as spec/opcode_table.json numbers
them. A request is one 13-bit word, so the bits above `nbits` are 0 of themselves. -/
def decodeTableWord (nbits w : Nat) : Option Instr :=
  let v := w % 2 ^ nbits
  match decodeNat (tableProfile .single (BitVec.ofNat 13 v)) v with
  | .ok i => some i
  | .error _ => none

end Sys2Proof
end

