-- ==== Sys2Proof/Machine/Operands.lean ====
section
/-!
DEFINITION. Operands: reading the request latches, loading them from a request, and chip strings as
numbers (10_state.md R15, R19; 30_encoding.md R65; 00_scope.md R8).
-/

namespace Sys2Proof.Machine

/-- Goes on with a value that was read, or stops with the fault the read gave. -/
def withValue {α : Type} (e : Except Fault α) (k : α → Result) : Result :=
  match e with
  | .ok a => k a
  | .error f => .fault f

/-- The value of a register; a register that holds no value faults (10_state.md R19). -/
def valueOf {α : Type} (r : ValueReg) (v : Option α) : Except Fault α :=
  match v with
  | some a => .ok a
  | none => .error (.noValue r)

/-- Reads `HP`. -/
def readHp (s : State) : Except Fault Bool := valueOf .hp s.hp

/-- Reads `SW8`. -/
def readSw8 (s : State) : Except Fault Nibble := valueOf .sw8 s.sw8

/-- Reads `SW9`. -/
def readSw9 (s : State) : Except Fault Nibble := valueOf .sw9 s.sw9

/-- Reads `CMD`. -/
def readCmd (s : State) : Except Fault Nibble := valueOf .cmd s.cmd

/-- Loads the four latches from a request's fields (42_transmission_driver.md R97, first line). -/
def loadLatches (hp : Bool) (sw8 sw9 cmd : Nibble) (s : State) : State :=
  { s with hp := some hp, sw8 := some sw8, sw9 := some sw9, cmd := some cmd }

/-- Discards the latches and the data registers: they hold no value
(42_transmission_driver.md R111, last line). -/
def discardData (s : State) : State :=
  { s with hp := none, sw8 := none, sw9 := none, cmd := none, sym := none, pay := [], frame := [] }

/-- The request word whose fields the latches hold, where all four hold a value. -/
def latchedWord (s : State) : Option ReqWord :=
  match s.hp, s.sw8, s.sw9, s.cmd with
  | some hp, some a, some b, some c => some (packReq hp a b c)
  | _, _, _, _ => none

/-- `uint(s)`: the value of a chip string, leftmost chip most significant (00_scope.md R8,
20_memory.md R43). -/
def uint (chips : List Chip) : Nat :=
  chips.foldl (fun n c => 2 * n + c.toNat) 0

/-- `str_n(v)`: the chip string whose chip `i` is `v[n-1-i]` (00_scope.md R8). -/
def strN {n : Nat} (v : BitVec n) : List Chip :=
  (List.range n).map fun i => v.getMsbD i

end Sys2Proof.Machine
end

