-- ==== Sys2Proof/Machine/Ops.lean ====
section
/-!
DEFINITION. The shared operations: the byte space, taking an exception and completing, one radio
call, reset.
-/

namespace Sys2Proof.Machine

/-! ### The byte space (20_memory.md R37, R39) -/

/-- The byte at an address, where it holds a value. -/
def Memory.readByte : Memory → Nat → Option Byte
  | [], _ => none
  | (x, v) :: rest, a => if x = a then some v else Memory.readByte rest a

/-- Stores one byte, keeping the addresses strictly rising. -/
def Memory.writeByte : Memory → Nat → Byte → Memory
  | [], a, b => [(a, b)]
  | (x, v) :: rest, a, b =>
    if a < x then (a, b) :: (x, v) :: rest
    else if a = x then (a, b) :: rest
    else (x, v) :: Memory.writeByte rest a b

/-- The canonical form: addresses strictly rising. (An address that is not listed holds no value, so no
entry can equal what an unlisted address reads as.) -/
def Memory.wf : Memory → Bool
  | [] => true
  | [_] => true
  | (x, _) :: (y, w) :: rest => decide (x < y) && Memory.wf ((y, w) :: rest)

/-- The `n` bytes from address `a` on, lowest address first, where all hold a value. -/
def Memory.readBytes (m : Memory) : Nat → Nat → Option (List Byte)
  | _, 0 => some []
  | a, n + 1 =>
    match Memory.readByte m a, Memory.readBytes m (a + 1) n with
    | some b, some rest => some (b :: rest)
    | _, _ => none

/-- Stores a list of bytes from address `a` on. -/
def Memory.writeBytes : Memory → Nat → List Byte → Memory
  | m, _, [] => m
  | m, a, b :: rest => Memory.writeBytes (Memory.writeByte m a b) (a + 1) rest

/-- The number of bytes of a buffer (20_memory.md R39). -/
def bufSize : Buf → Nat
  | .pay => 5
  | .frame => 10

/-- The contents of a buffer. -/
def bufMem (buf : Buf) (s : State) : Memory :=
  match buf with
  | .pay => s.pay
  | .frame => s.frame

/-- The state with the contents of a buffer replaced. -/
def setBufMem (buf : Buf) (m : Memory) (s : State) : State :=
  match buf with
  | .pay => { s with pay := m }
  | .frame => { s with frame := m }

/-- `MemRead(buf, a, n)` (20_memory.md R39). -/
def memRead (buf : Buf) (a n : Nat) (s : State) : Except Fault (List Byte) :=
  if a + n ≤ bufSize buf then valueOf (.buf buf) (Memory.readBytes (bufMem buf s) a n)
  else .error (.outsideBuffer buf)

/-- `MemWrite(buf, a, n, list)` with `n` the length of the list (20_memory.md R39). -/
def memWrite (buf : Buf) (a : Nat) (bytes : List Byte) (s : State) : Except Fault State :=
  if a + bytes.length ≤ bufSize buf then
    .ok (setBufMem buf (Memory.writeBytes (bufMem buf s) a bytes) s)
  else .error (.outsideBuffer buf)

/-! ### Taking an exception, and completion (60_exceptions.md R130, 42_transmission_driver.md R111) -/

/-- The `CAUSE` code of an exception (60_exceptions.md R123). -/
def Exception.code : Exception → BitVec 3
  | .invalidCommand _ => 1#3
  | .radioConfigurationError _ => 2#3
  | .transmitError _ => 3#3
  | .teardownError _ => 4#3

/-- The `EINFO` value of an exception (60_exceptions.md R123, 10_state.md R25). -/
def Exception.info : Exception → BitVec 4
  | .invalidCommand c => c
  | .radioConfigurationError i => i
  | .transmitError k => k
  | .teardownError k => k

/-- Records an exception in `CAUSE` and `EINFO`; the first one wins (60_exceptions.md R130, R132). -/
def recordCause (e : Exception) (s : State) : State :=
  if s.cause = 0#3 then { s with cause := e.code, einfo := e.info } else s

/-- `complete(c)` (42_transmission_driver.md R111): the end of an invocation, which is also the return
from an exception (60_exceptions.md R133). -/
def complete (c : BitVec 3) (s : State) : State :=
  discardData { flagsCompleted c s with held := false, phase := .idle }

/-- Where control goes once the cause is recorded: the forced teardown while it is owed, else straight
to completion (60_exceptions.md R130). -/
def divert (s : State) : State :=
  if s.held then { s with phase := .tdIdle } else complete s.cause s

/-- `raise E(info)`: exception entry (60_exceptions.md R130). -/
def raise (e : Exception) (s : State) : State :=
  divert (recordCause e s)

/-- A teardown call answered: `fail` records `TeardownError` if no earlier exception was recorded, and
diverts nothing (60_exceptions.md R127; 42_transmission_driver.md R109, R110). -/
def recordTeardown (call : BitVec 4) (r : RadioAnswer) (s : State) : State :=
  match r with
  | .ok => s
  | .fail => recordCause (.teardownError call) s

/-! ### One radio call (00_scope.md R10) -/

/-- The call has been answered: it enters the radio trace with its answer (10_state.md R31). -/
def answered (op : RadioOp) (r : RadioAnswer) (rest : List RadioAnswer) (s : State) : State :=
  { s with answers := rest, outstanding := none, trace := s.trace ++ [{ op := op, answer := r }] }

/-- The call has no answer yet: the core waits in its phase (10_state.md R21 last row,
60_exceptions.md R144). -/
def awaiting (op : RadioOp) (s : State) : State :=
  { s with outstanding := some op }

/-- `Radio.<op>(args)`: makes the call, waits for the answer, and goes on with it (00_scope.md R10). -/
def radioCall (op : RadioOp) (s : State) (k : RadioAnswer → State → State) : Result :=
  match s.answers with
  | [] => .next (awaiting op s)
  | r :: rest => .next (k r (answered op r rest s))

/-! ### Reset (70_reset_and_hazards.md R147 to R150) -/

/-- The reset operation: every register at its reset value, the configuration unchanged. The inputs of
the host and of the radio stay, and the reset input is released (log 6). -/
def applyReset (s : State) : State :=
  { State.reset with cfg := s.cfg, requests := s.requests, answers := s.answers }

/-- Reset asserted: in `IDLE` it is performed, while busy it is refused (70_reset_and_hazards.md
R147, R149). -/
def stepReset (s : State) : Result :=
  if s.phase = .idle then .next (applyReset s) else .refused .resetWhileBusy

end Sys2Proof.Machine
end

