-- ==== Sys2Proof/Machine/SymbolEncoder.lean ====
section
/-!
DEFINITION. The SymbolEncoder (40_symbol_encoder.md).
-/

namespace Sys2Proof.Machine

/-- `SE.ENC_BIT(b)`: `010` for 0, `110` for 1 (40_symbol_encoder.md R78). -/
def seEncBit (b : Bool) : List Chip := [b, true, false]

/-- `SE.ENC_NIB(v)`: the symbols of `v[3]`, `v[2]`, `v[1]`, `v[0]` (40_symbol_encoder.md R79). -/
def seEncNib (v : Nibble) : List Chip :=
  seEncBit (v.getLsbD 3) ++ seEncBit (v.getLsbD 2) ++ seEncBit (v.getLsbD 1) ++ seEncBit (v.getLsbD 0)

end Sys2Proof.Machine
end

