-- ==== Sys2Proof/Machine/PacketEncoder.lean ====
section
/-!
DEFINITION. The PacketEncoder (41_packet_encoder.md).
-/

namespace Sys2Proof.Machine

/-- `PE.BUILD(sw8, sw9, cmd)` as a chip string, preamble `010` first (41_packet_encoder.md R85). -/
def peChips (sw8 sw9 cmd : Nibble) : List Chip :=
  seEncBit false ++ seEncNib sw8 ++ seEncNib sw9 ++ seEncNib cmd

/-- The packet is 39 chips for every input (41_packet_encoder.md R85). -/
theorem peChips_length (sw8 sw9 cmd : Nibble) : (peChips sw8 sw9 cmd).toArray.size = 39 := rfl

/-- `PE.BUILD(sw8, sw9, cmd)`: the 39-chip packet (41_packet_encoder.md R85). -/
def peBuild (sw8 sw9 cmd : Nibble) : Vector Chip 39 :=
  { toArray := (peChips sw8 sw9 cmd).toArray, size_toArray := peChips_length sw8 sw9 cmd }

/-- `PE.PAD(s)`: the length fix-up the policy selects (41_packet_encoder.md R86). -/
def pePad : PadPolicy → List Chip → List Chip
  | .zeroPad, s => s ++ [false]
  | .raw7, s => s

/-- Chunk `k` of `PE.CHUNK(s')`: chips `8k` up to `8k+8` or the end (41_packet_encoder.md R87). -/
def peChunk (s : List Chip) (k : Nat) : List Chip := (s.drop (8 * k)).take 8

/-- `PE.PACK(s)`: one byte per chunk (41_packet_encoder.md R88 `ZERO_PAD`, R89 `RAW7`). -/
def pePack (policy : PadPolicy) (s : Vector Chip 39) : List Byte :=
  [0, 1, 2, 3, 4].map fun k => BitVec.ofNat 8 (uint (peChunk (pePad policy s.toList) k))

/-- `PE.ENCODE(sw8, sw9, cmd)`: the 5 bytes of the payload (41_packet_encoder.md R84). -/
def peEncode (policy : PadPolicy) (sw8 sw9 cmd : Nibble) : List Byte :=
  pePack policy (peBuild sw8 sw9 cmd)

end Sys2Proof.Machine
end

