-- ==== Sys2Proof/Machine/TransmissionDriver.lean ====
section
/-!
DEFINITION. The TransmissionDriver: every step of the SEND sequence, one per value of `PHASE`
(42_transmission_driver.md R95 to R114).
-/

namespace Sys2Proof.Machine

/-! ### The driver's constants (00_scope.md R5) -/

/-- `REPEAT`: transmissions per command. -/
def repeatCount : BitVec 4 := 8#4

/-- `BAUD`: the argument of `setDataRate`. -/
def baud : Nat := 2400

/-- `FRAME_LEN`: bytes per radio transmission, the argument of `setFixedFrameLength`. -/
def frameLen : Nat := 10

/-- `PAYLOAD_LEN`: bytes of packed payload. -/
def payloadLen : Nat := 5

/-- The spacer: `SPACER_LEN` bytes of `SPACER_BYTE`. -/
def spacer : List Byte := [0x00, 0x00, 0x00, 0x00, 0x00]

/-! ### Hand-over and check -/

/-- ACCEPT (42_transmission_driver.md R97). -/
def accept (hp : Bool) (sw8 sw9 cmd : Nibble) (s : State) : State :=
  let t := flagsAccepted (loadLatches hp sw8 sw9 cmd s)
  { t with rep := 0#4, cause := 0#3, einfo := 0#4, held := false, phase := .decode }

/-- DECODE (42_transmission_driver.md R98). -/
def stepDecode (s : State) : Result :=
  withValue (readCmd s) fun c =>
    if validCmd s.cfg.profile c then .next { s with phase := .build }
    else .next (raise (.invalidCommand c) s)

/-- BUILD (42_transmission_driver.md R99). -/
def stepBuild (s : State) : Result :=
  withValue (readSw8 s) fun a =>
  withValue (readSw9 s) fun b =>
  withValue (readCmd s) fun c =>
    let chips := peBuild a b c
    withValue (memWrite .pay 0 (pePack s.cfg.padPolicy chips) { s with sym := some chips }) fun t =>
      .next { t with held := true, phase := .cfgFreq }

/-! ### Radio configuration -/

/-- The shape of the six configuration steps: one call; `ok` goes to the next phase, `fail` raises
`RadioConfigurationError(index)` (42_transmission_driver.md section 3). -/
def configStep (op : RadioOp) (index : BitVec 4) (nextPhase : Phase) (s : State) : Result :=
  radioCall op s fun r t =>
    match r with
    | .ok => { t with phase := nextPhase }
    | .fail => raise (.radioConfigurationError index) t

/-- CFG_FREQ (42_transmission_driver.md R100). -/
def stepCfgFreq (s : State) : Result :=
  withValue (readHp s) fun hp =>
    configStep (.setFrequency s.cfg.freqHz) 0#4 (if hp then .cfgPower else .cfgMod) s

/-- CFG_POWER (42_transmission_driver.md R101). -/
def stepCfgPower (s : State) : Result := configStep .setMaxPower 1#4 .cfgMod s

/-- CFG_MOD (42_transmission_driver.md R102). -/
def stepCfgMod (s : State) : Result := configStep (.setModulation .amOnOffKeying) 2#4 .cfgRate s

/-- CFG_RATE (42_transmission_driver.md R103). -/
def stepCfgRate (s : State) : Result := configStep (.setDataRate baud) 3#4 .cfgLen s

/-- CFG_LEN (42_transmission_driver.md R104). -/
def stepCfgLen (s : State) : Result := configStep (.setFixedFrameLength frameLen) 4#4 .cfgSync s

/-- CFG_SYNC (42_transmission_driver.md R105). -/
def stepCfgSync (s : State) : Result := configStep (.setSyncMode .none) 5#4 .frame s

/-! ### Framing and transmission -/

/-- FRAME (42_transmission_driver.md R106). -/
def stepFrame (s : State) : Result :=
  withValue (memRead .pay 0 payloadLen s) fun payload =>
  withValue (memWrite .frame 0 spacer s) fun t =>
  withValue (memWrite .frame 5 payload t) fun u =>
    .next { u with phase := .tx }

/-- The state after a transmission answered `r` (42_transmission_driver.md R107). -/
def transmitted (r : RadioAnswer) (s : State) : State :=
  match r with
  | .ok =>
    { s with rep := s.rep + 1#4, phase := if s.rep + 1#4 = repeatCount then .tdIdle else .tx }
  | .fail => raise (.transmitError (s.rep + 1#4)) s

/-- TX (42_transmission_driver.md R107): one transmission. Its precondition is `REP ≤ 7`. -/
def stepTx (s : State) : Result :=
  if s.rep < repeatCount then
    withValue (memRead .frame 0 frameLen s) fun bytes =>
      radioCall (.transmitRaw bytes) s transmitted
  else .fault .noTxRule

/-! ### Teardown -/

/-- TD_IDLE (42_transmission_driver.md R109). -/
def stepTdIdle (s : State) : Result :=
  radioCall .setIdle s fun r t => { recordTeardown 0#4 r t with phase := .tdCleanup }

/-- TD_CLEANUP (42_transmission_driver.md R110). -/
def stepTdCleanup (s : State) : Result :=
  radioCall .cleanup s fun r t => complete (recordTeardown 1#4 r t).cause (recordTeardown 1#4 r t)

/-! ### The sequencer -/

/-- The next step of the invocation in progress, selected by `PHASE` (10_state.md R20, R21). In `IDLE`
there is none, and the core waits for a request. -/
def advance (s : State) : Result :=
  match s.phase with
  | .idle => .next s
  | .decode => stepDecode s
  | .build => stepBuild s
  | .cfgFreq => stepCfgFreq s
  | .cfgPower => stepCfgPower s
  | .cfgMod => stepCfgMod s
  | .cfgRate => stepCfgRate s
  | .cfgLen => stepCfgLen s
  | .cfgSync => stepCfgSync s
  | .frame => stepFrame s
  | .tx => stepTx s
  | .tdIdle => stepTdIdle s
  | .tdCleanup => stepTdCleanup s

/-- One step of the SEND sequence with the given request presented (43_commands.md R115,
42_transmission_driver.md R96): in `IDLE` the request is accepted; while an invocation is in progress
it is not taken, and that invocation takes its next step (R97; log 7). -/
def send (hp : Bool) (sw8 sw9 cmd : Nibble) (s : State) : Result :=
  if s.phase = .idle then .next (accept hp sw8 sw9 cmd s) else advance s

end Sys2Proof.Machine
end

