-- ==== Sys2Proof/Machine/Commands.lean ====
section
/-!
DEFINITION. The meanings of the seven commands (43_commands.md R115 to R122). All execute the SEND
sequence and differ in `CMD` only.
-/

namespace Sys2Proof.Machine

/-- OFF: R115 with `CMD = 1010` (43_commands.md R116). -/
def execOff (hp : Bool) (sw8 sw9 : Nibble) (s : State) : Result := send hp sw8 sw9 0b1010#4 s

/-- SLOW: R115 with `CMD = 0010` (43_commands.md R117). -/
def execSlow (hp : Bool) (sw8 sw9 : Nibble) (s : State) : Result := send hp sw8 sw9 0b0010#4 s

/-- MEDIUM: R115 with `CMD = 0100` (43_commands.md R118). -/
def execMedium (hp : Bool) (sw8 sw9 : Nibble) (s : State) : Result := send hp sw8 sw9 0b0100#4 s

/-- FAST: R115 with `CMD = 1000` (43_commands.md R119). -/
def execFast (hp : Bool) (sw8 sw9 : Nibble) (s : State) : Result := send hp sw8 sw9 0b1000#4 s

/-- LIGHT: R115 with `CMD = 0101` (43_commands.md R120); under `DUAL` the same word is LIGHT1. -/
def execLight (hp : Bool) (sw8 sw9 : Nibble) (s : State) : Result := send hp sw8 sw9 0b0101#4 s

/-- LIGHT1: R115 with `CMD = 0101` (43_commands.md R121). -/
def execLight1 (hp : Bool) (sw8 sw9 : Nibble) (s : State) : Result := send hp sw8 sw9 0b0101#4 s

/-- LIGHT2: R115 with `CMD = 1001` (43_commands.md R122); under `SINGLE` DECODE raises
`InvalidCommand(1001)`. -/
def execLight2 (hp : Bool) (sw8 sw9 : Nibble) (s : State) : Result := send hp sw8 sw9 0b1001#4 s

/-- A request word that is no command under the profile: accepted like every word, rejected by DECODE
one step later (42_transmission_driver.md R97, R98; 30_encoding.md R68). -/
def execIllegal (w : ReqWord) (s : State) : Result := send (reqHp w) (reqSw8 w) (reqSw9 w) (reqCmd w) s

end Sys2Proof.Machine
end

