-- ==== Sys2Proof/Machine/Dispatch.lean ====
section
/-!
DEFINITION. One arm per instruction.
-/

namespace Sys2Proof.Machine

def exec (i : Instr) (s : State) : Host.Outcome State Fault Refusal :=
  match i with
  | .off hp sw8 sw9 => Sys2Proof.Machine.execOff hp sw8 sw9 s
  | .slow hp sw8 sw9 => Sys2Proof.Machine.execSlow hp sw8 sw9 s
  | .medium hp sw8 sw9 => Sys2Proof.Machine.execMedium hp sw8 sw9 s
  | .fast hp sw8 sw9 => Sys2Proof.Machine.execFast hp sw8 sw9 s
  | .light hp sw8 sw9 => Sys2Proof.Machine.execLight hp sw8 sw9 s
  | .light1 hp sw8 sw9 => Sys2Proof.Machine.execLight1 hp sw8 sw9 s
  | .light2 hp sw8 sw9 => Sys2Proof.Machine.execLight2 hp sw8 sw9 s

end Sys2Proof.Machine
end

