-- ==== Sys2Proof/Machine/Step.lean ====
section
/-!
DEFINITION. One step of the machine, and how a test presents an instruction to it.
-/

namespace Sys2Proof.Machine

/-- Runs the instruction a request word stands for under the configured profile. -/
def runWord (w : ReqWord) (s : State) : Host.Outcome State Fault Refusal :=
  match decode s.cfg.profile w with
  | .ok i => exec i s
  | .error _ => execIllegal w s

/-- One step. The reset input comes first (log 6). In `IDLE` the presented request is taken and run, or
the core waits (10_state.md R21). While busy, the instruction in the latches takes its next step; the
presented requests stay untouched (42_transmission_driver.md R97). -/
def step (s : State) : Host.Outcome State Fault Refusal :=
  if s.resetIn then stepReset s
  else if s.phase = .idle then
    match s.requests with
    | [] => .next s
    | w :: rest => runWord w { s with requests := rest }
  else
    match latchedWord s with
    | some w => runWord w s
    | none => advance s

/-- `s` with the host presenting the instruction whose bits are `w`, where the next fetch takes it; the
reset input is released. `CFG.PROFILE` changes only for the two words that are a row of the table under
one profile (`tableProfile`; log 8). A number of more than 13 bits is no request, and nothing is
presented. -/
def State.withFetchWord (s : State) (nbits w : Nat) : State :=
  let v := w % 2 ^ nbits
  let word := BitVec.ofNat 13 v
  if v < 8192 then
    { s with
      requests := word :: s.requests
      resetIn := false
      cfg := { s.cfg with profile := tableProfile s.cfg.profile word } }
  else s

end Sys2Proof.Machine
end

