-- ==== Sys2Proof/Machine/HostPort.lean ====
section
/-!
DEFINITION. The host's side of the core: the five registers it reads and the two inputs it writes
(10_state.md R32). Every other register is internal and no definition gives it to the host.
-/

namespace Sys2Proof.Machine

/-- Everything the host reads: the flags, the cause and its information (10_state.md R32, R23 to R25;
60_exceptions.md R133). -/
structure HostReport where
  busy  : Bool
  done  : Bool
  errf  : Bool
  cause : BitVec 3
  einfo : BitVec 4
deriving DecidableEq, Repr

/-- The host reads `BUSY`, `DONE`, `ERRF`, `CAUSE`, `EINFO` and nothing else (10_state.md R32). A read
changes nothing. -/
def hostRead (s : State) : HostReport :=
  { busy := s.busy, done := s.done, errf := s.errf, cause := s.cause, einfo := s.einfo }

/-- Everything the host writes (10_state.md R32). -/
inductive HostWrite where
  /-- the request: what the host presents from now on (log 5); the core takes it in `IDLE` only -/
  | request (words : List ReqWord)
  /-- reset: the host asserts or releases it (70_reset_and_hazards.md R147; log 6) -/
  | reset (asserted : Bool)
deriving DecidableEq, Repr

/-- A write of the host reaches its own two inputs and no register of the core (10_state.md R32). -/
def hostWrite (w : HostWrite) (s : State) : State :=
  match w with
  | .request words => { s with requests := words }
  | .reset asserted => { s with resetIn := asserted }

end Sys2Proof.Machine
end

