-- ==== Sys2Proof/Safety.lean ====
section
/-!
DEFINITION. What counts as a good state and a complete invocation, in the terms the statements use:
the invariants of 10_state.md R35, the states a run reaches, and the radio trace and report an
invocation must leave (42_transmission_driver.md R112, 60_exceptions.md R123).
-/

namespace Sys2Proof.Machine

/-! ### Phases -/

/-- The phases from `CFG_FREQ` to `TD_CLEANUP`, in which a teardown is owed (10_state.md R35 (d)). -/
def Phase.owesTeardown : Phase → Bool
  | .idle | .decode | .build => false
  | _ => true

/-- The phases before `TX` of an invocation in progress. -/
def Phase.beforeTx : Phase → Bool
  | .idle | .tx | .tdIdle | .tdCleanup => false
  | _ => true

/-- The radio call the current phase makes (10_state.md R20), where it makes one. -/
def phaseCall (s : State) : Option RadioOp :=
  match s.phase with
  | .idle | .decode | .build | .frame => none
  | .cfgFreq => some (.setFrequency s.cfg.freqHz)
  | .cfgPower => some .setMaxPower
  | .cfgMod => some (.setModulation .amOnOffKeying)
  | .cfgRate => some (.setDataRate 2400)
  | .cfgLen => some (.setFixedFrameLength 10)
  | .cfgSync => some (.setSyncMode .none)
  | .tx => (Memory.readBytes s.frame 0 10).map .transmitRaw
  | .tdIdle => some .setIdle
  | .tdCleanup => some .cleanup

/-! ### Invariants -/

/-- The invariants the spec states of every reachable state, clause by clause (10_state.md R35). -/
structure State.SpecInv (s : State) : Prop where
  /-- (a) -/
  busy : s.busy = true ↔ s.phase ≠ .idle
  /-- (b) -/
  done : s.done = true → s.phase = .idle
  /-- (c) -/
  errf : s.errf = true → s.done = true ∧ s.cause ≠ 0#3
  /-- (d) -/
  held : s.held = true ↔ s.phase.owesTeardown = true
  /-- (e): after completion `REP` keeps its value (10_state.md R22), so `IDLE` counts as after `TX`
  (DEDUCED, log 10) -/
  rep : s.rep ≤ 8#4 ∧ (s.phase.beforeTx = true → s.rep = 0#4)
  /-- (f) -/
  cause : s.cause ≤ 4#3
  /-- (g) -/
  noCause : s.phase = .frame ∨ s.phase = .tx → s.cause = 0#3
  /-- (h) -/
  frameLayout : s.phase = .tx → ∃ payload,
    Memory.readBytes s.pay 0 5 = some payload ∧
    Memory.readBytes s.frame 0 5 = some [0x00, 0x00, 0x00, 0x00, 0x00] ∧
    Memory.readBytes s.frame 5 5 = some payload

/-- Every address of a buffer lies below `n`. -/
def Memory.below (n : Nat) (m : Memory) : Bool := m.all fun c => decide (c.1 < n)

/-- What the latches and data registers hold while an invocation is in progress (10_state.md R19):
the request from ACCEPT on, a valid command from BUILD on, and the packet and payload made from it from
CFG_FREQ on. -/
def State.Loaded (s : State) : Prop :=
  ∃ hp a b c, s.hp = some hp ∧ s.sw8 = some a ∧ s.sw9 = some b ∧ s.cmd = some c ∧
    (s.phase ≠ .decode → validCmd s.cfg.profile c = true) ∧
    (s.phase.owesTeardown = true →
      s.sym = some (peBuild a b c) ∧
      Memory.readBytes s.pay 0 5 = some (peEncode s.cfg.padPolicy a b c)) ∧
    (s.phase = .cfgPower → hp = true) ∧
    (s.phase = .tx → Memory.readBytes s.frame 0 10 =
      some ([0x00, 0x00, 0x00, 0x00, 0x00] ++ peEncode s.cfg.padPolicy a b c))

/-- The inductive invariant: the spec's invariants and what keeps them true. -/
structure State.Inv (s : State) : Prop where
  spec : s.SpecInv
  /-- in `IDLE` the latches and data registers hold no value (10_state.md R19) -/
  discarded : s.phase = .idle →
    s.hp = none ∧ s.sw8 = none ∧ s.sw9 = none ∧ s.cmd = none ∧ s.sym = none ∧ s.pay = [] ∧ s.frame = []
  loaded : s.phase ≠ .idle → s.Loaded
  /-- the byte space keeps its canonical form -/
  payForm : Memory.wf s.pay = true ∧ Memory.below 5 s.pay = true
  frameForm : Memory.wf s.frame = true ∧ Memory.below 10 s.frame = true
  /-- the precondition of TX (42_transmission_driver.md R107) -/
  repTx : s.phase = .tx → s.rep < 8#4
  /-- no exception is recorded before the teardown -/
  causeZero : s.phase ≠ .idle → s.phase ≠ .tdIdle → s.phase ≠ .tdCleanup → s.cause = 0#3
  /-- `TeardownError` is recorded by the teardown only -/
  causeTdIdle : s.phase = .tdIdle → s.cause ≠ 4#3
  /-- without an earlier exception all eight transmissions were answered ok (10_state.md R22) -/
  repEnd : s.phase = .tdIdle ∨ s.phase = .tdCleanup ∨ s.done = true →
    s.cause = 0#3 ∨ s.cause = 4#3 → s.rep = 8#4
  /-- the report agrees with the cause (42_transmission_driver.md R111) -/
  report : s.done = true → s.errf = (s.cause != 0#3)
  /-- the call being waited on is the call of the phase (20_memory.md R50) -/
  outstanding : ∀ op, s.outstanding = some op → phaseCall s = some op

/-- The states a run reaches: from reset under any configuration and inputs, by the core's steps and by
what the host writes (R32: the request and reset) and the radio answers between them (10_state.md R14). -/
inductive Reachable : State → Prop where
  | reset (cfg : Cfg) (requests : List ReqWord) (answers : List RadioAnswer) :
      Reachable { State.reset with cfg := cfg, requests := requests, answers := answers }
  | step {s t : State} : Reachable s → step s = .next t → Reachable t
  | host {s : State} (w : HostWrite) : Reachable s → Reachable (hostWrite w s)
  | answer {s : State} (rs : List RadioAnswer) : Reachable s → Reachable { s with answers := rs }

/-- The end of an invocation (70_reset_and_hazards.md R166). -/
def State.Ended (s : State) : Prop := s.phase = .idle ∧ s.done = true ∧ s.busy = false

/-! ### A whole invocation -/

/-- `n` executions of the same instruction, stopping at the first that gives no next state. -/
def execTimes (i : Instr) : Nat → State → Result
  | 0, s => .next s
  | n + 1, s =>
    match exec i s with
    | .next t => execTimes i n t
    | .fault f => .fault f
    | .refused r => .refused r

/-- The radio calls an invocation makes up to the eighth transmission, in order
(42_transmission_driver.md R112). -/
def plannedCalls (freqHz : Nat) (hp : Bool) (frame : List Byte) : List RadioOp :=
  [.setFrequency freqHz] ++ (if hp then [.setMaxPower] else []) ++
  [.setModulation .amOnOffKeying, .setDataRate 2400, .setFixedFrameLength 10, .setSyncMode .none] ++
  List.replicate 8 (.transmitRaw frame)

/-- The radio trace of an invocation whose calls the radio answers in turn: the planned calls up to and
including the first that fails, then `setIdle`, `cleanup` (42_transmission_driver.md R112). -/
def invocationTrace : List RadioOp → List RadioAnswer → List RadioCall
  | op :: ops, .ok :: rs => { op := op, answer := .ok } :: invocationTrace ops rs
  | op :: _, .fail :: r :: r' :: _ =>
    [{ op := op, answer := .fail }, { op := .setIdle, answer := r }, { op := .cleanup, answer := r' }]
  | [], r :: r' :: _ => [{ op := .setIdle, answer := r }, { op := .cleanup, answer := r' }]
  | _, _ => []

/-- The exception a failed call raises (60_exceptions.md R141), for a transmission with its attempt
number. -/
def RadioOp.failure (attempt : BitVec 4) : RadioOp → Exception
  | .setFrequency _ => .radioConfigurationError 0#4
  | .setMaxPower => .radioConfigurationError 1#4
  | .setModulation _ => .radioConfigurationError 2#4
  | .setDataRate _ => .radioConfigurationError 3#4
  | .setFixedFrameLength _ => .radioConfigurationError 4#4
  | .setSyncMode _ => .radioConfigurationError 5#4
  | .transmitRaw _ => .transmitError attempt
  | .setIdle => .teardownError 0#4
  | .cleanup => .teardownError 1#4

/-- Whether the call is a transmission. -/
def RadioOp.isTransmit : RadioOp → Bool
  | .transmitRaw _ => true
  | _ => false

/-- The first exception of an invocation whose calls the radio answers in turn, with `attempt` the
number of the next transmission: the first call that fails decides (60_exceptions.md R131, R132). -/
def firstException (attempt : BitVec 4) : List RadioOp → List RadioAnswer → Option Exception
  | op :: ops, .ok :: rs => firstException (if op.isTransmit then attempt + 1#4 else attempt) ops rs
  | op :: _, .fail :: _ => some (op.failure attempt)
  | [], .fail :: _ => some (.teardownError 0#4)
  | [], .ok :: .fail :: _ => some (.teardownError 1#4)
  | _, _ => none

/-- `CAUSE` after an invocation with this first exception. -/
def causeOf : Option Exception → BitVec 3
  | none => 0#3
  | some e => e.code

/-- `EINFO` after an invocation with this first exception. -/
def infoOf : Option Exception → BitVec 4
  | none => 0#4
  | some e => e.info

/-- The number of transmissions of a trace answered ok (10_state.md R22). -/
def okTransmissions (calls : List RadioCall) : Nat :=
  (calls.filter fun c => c.op.isTransmit && (c.answer == .ok)).length

/-! ### One command -/

/-- What 43_commands.md states of one command: its value and request word, that it is SEND with that
value, its twelve chips, its packet and payloads with the default switches, that an idle core accepts it,
and that DECODE passes it under each profile it exists in. -/
structure CommandFacts (mk : Bool → Nibble → Nibble → Instr) (c : Nibble) (chips : BitVec 12)
    (profiles : List Profile) (packet : BitVec 39) (zero raw : List Byte) : Prop where
  word : ∀ hp a b, encode (mk hp a b) = packReq hp a b c
  semantics : ∀ hp a b s, exec (mk hp a b) s = send hp a b c s
  chips : seEncNib c = strN chips
  packet : (peBuild 0b0000#4 0b0011#4 c).toList = strN packet
  zero : peEncode .zeroPad 0b0000#4 0b0011#4 c = zero
  raw : peEncode .raw7 0b0000#4 0b0011#4 c = raw
  accepted : ∀ hp a b s, s.phase = .idle → ∃ t, exec (mk hp a b) s = .next t ∧ t.phase = .decode ∧
    t.hp = some hp ∧ t.sw8 = some a ∧ t.sw9 = some b ∧ t.cmd = some c
  exists_in : ∀ p hp a b, (mk hp a b).wf p = true ↔ p ∈ profiles
  passed : ∀ hp a b s, s.phase = .decode → s.cmd = some c → s.cfg.profile ∈ profiles →
    exec (mk hp a b) s = .next { s with phase := .build }

end Sys2Proof.Machine
end

