-- ==== Sys2Proof/Certificates/Slice0/Obligations.lean ====
section
/-!
DEFINITION. The statements about the core, from the numbered rules of spec/.
`Instr` is quantified over in full: a statement `∀ i : Instr` holds of OFF, SLOW, MEDIUM, FAST, LIGHT,
LIGHT1 and LIGHT2 alike.
-/

open Sys2Proof Sys2Proof.Machine

/-! ### Request words -/

/-- Every command that exists under a profile is read back from its request word, with every operand at
every value (30_encoding.md R64, R66, R75). -/
def Obligations.DecodeOfEncodeIsTheCommand : Prop :=
  ∀ (p : Profile) (i : Instr), i.wf p = true → decode p (encode i) = .ok i

/-- 30_encoding.md R75: the decoder is total; a word whose `CMD` is valid under the profile gives the one
command that exists under it with the word's own fields; any other gives `InvalidCommand` of its `CMD`;
and the DECODE step is this function applied to the latched fields. -/
def Obligations.DecodeIsTotalAndExact : Prop :=
  ∀ (p : Profile) (w : ReqWord),
    (validCmd p (reqCmd w) = true → ∃ i, decode p w = .ok i ∧ i.wf p = true ∧
      i.hp = w.getLsbD 12 ∧ i.sw8 = w.extractLsb' 8 4 ∧ i.sw9 = w.extractLsb' 4 4 ∧
      i.cmd = w.extractLsb' 0 4) ∧
    (validCmd p (reqCmd w) = false → decode p w = .error (.invalidCommand (w.extractLsb' 0 4))) ∧
    (∀ (i : Instr) (s : State), s.phase = .decode → s.cfg.profile = p → s.cmd = some (reqCmd w) →
      exec i s = match decode p w with
        | .ok _ => .next { s with phase := .build }
        | .error _ => .next (raise (.invalidCommand (reqCmd w)) s))

/-- Words written out in 95_test_vectors.md section 2.4 decode to the commands they stand for. -/
def Obligations.WordsOfTheSpecDecode : Prop :=
  decode .single 0x003A#13 = .ok (.off false 0b0000#4 0b0011#4) ∧
  decode .dual 0x103A#13 = .ok (.off true 0b0000#4 0b0011#4) ∧
  decode .single 0x1F08#13 = .ok (.fast true 0b1111#4 0b0000#4) ∧
  decode .dual 0x1699#13 = .ok (.light2 true 0b0110#4 0b1001#4) ∧
  decode .single 0x1699#13 = .error (.invalidCommand 0b1001#4) ∧
  decode .dual 0x0A52#13 = .ok (.slow false 0b1010#4 0b0101#4) ∧
  decode .single 0x0034#13 = .ok (.medium false 0b0000#4 0b0011#4) ∧
  decode .single 0x0035#13 = .ok (.light false 0b0000#4 0b0011#4) ∧
  decode .dual 0x0035#13 = .ok (.light1 false 0b0000#4 0b0011#4) ∧
  decode .single 0x0000#13 = .error (.invalidCommand 0b0000#4) ∧
  decode .dual 0x1FFF#13 = .error (.invalidCommand 0b1111#4)

/-- 20_memory.md R38: the valid sets of the two profiles, and the twelve chips printed for each
command are the expansion of its value. -/
def Obligations.CommandTableMatchesTheSource : Prop :=
  (∀ c, validCmd .single c = true ↔
    c ∈ [0b1010#4, 0b0010#4, 0b0100#4, 0b1000#4, 0b0101#4]) ∧
  (∀ c, validCmd .dual c = true ↔
    c ∈ [0b1010#4, 0b0010#4, 0b0100#4, 0b1000#4, 0b0101#4, 0b1001#4]) ∧
  (∀ e ∈ cmdTable, seEncNib e.value = strN e.chips) ∧
  cmdTable.map (fun e => (e.value, e.chips.toNat, e.inSingle, e.inDual)) =
    [(0b1010#4, 0xCB2, true, true), (0b0010#4, 0x4B2, true, true), (0b0100#4, 0x592, true, true),
     (0b1000#4, 0xC92, true, true), (0b0101#4, 0x596, true, false), (0b0101#4, 0x596, false, true),
     (0b1001#4, 0xC96, false, true)]

/-! ### SymbolEncoder and PacketEncoder -/

/-- 40_symbol_encoder.md R78. -/
def Obligations.SymbolOfALogicalBit : Prop :=
  seEncBit false = [false, true, false] ∧ seEncBit true = [true, true, false]

/-- 40_symbol_encoder.md R79, with its corner cases. The number the twelve chips spell is the spec's own inference
(its mark: derived), and that the leftmost chip is the most significant is its decision D5 (log 11). -/
def Obligations.NibbleExpandsToTwelveChips : Prop :=
  ∀ v : Nibble,
    seEncNib v = seEncBit (v.getLsbD 3) ++ seEncBit (v.getLsbD 2) ++
      seEncBit (v.getLsbD 1) ++ seEncBit (v.getLsbD 0) ∧
    (seEncNib v).length = 12 ∧
    (∀ k : Fin 4, (seEncNib v)[3 * k.val + 1]? = some true ∧
      (seEncNib v)[3 * k.val + 2]? = some false) ∧
    uint (seEncNib v) = 0x492 + 0x800 * (v.getLsbD 3).toNat + 0x100 * (v.getLsbD 2).toNat +
      0x020 * (v.getLsbD 1).toNat + 0x004 * (v.getLsbD 0).toNat

/-- 40_symbol_encoder.md R81: only the two symbols, distinct; the expansion is injective, and logical bit
`k` from the left is chip `3k`. All but the first part is the spec's own inference (its mark: derived). -/
def Obligations.SymbolEncodingIsInvertible : Prop :=
  (∀ b, seEncBit b = [false, true, false] ∨ seEncBit b = [true, true, false]) ∧
  (∀ b b', seEncBit b = seEncBit b' → b = b') ∧
  (∀ v v', seEncNib v = seEncNib v' → v = v') ∧
  (∀ (v : Nibble) (k : Fin 4), (seEncNib v)[3 * k.val]? = some (v.getMsbD k.val))

/-- 41_packet_encoder.md R85: preamble, SW8, SW9, command; 39 chips; the last two are `1`, `0`. -/
def Obligations.PacketIsPreambleSwitchesCommand : Prop :=
  ∀ a b c : Nibble,
    (peBuild a b c).toList = [false, true, false] ++ seEncNib a ++ seEncNib b ++
      seEncNib c ∧
    (peBuild a b c).toList.length = 39 ∧
    (peBuild a b c).toList[37]? = some true ∧ (peBuild a b c).toList[38]? = some false

/-- 30_encoding.md R71: every symbol place of a packet holds `?10`, the preamble `010`. -/
def Obligations.PacketHasOnlySymbolPatterns : Prop :=
  ∀ (a b c : Nibble) (k : Fin 13),
    (peBuild a b c).toList[3 * k.val + 1]? = some true ∧
    (peBuild a b c).toList[3 * k.val + 2]? = some false ∧
    (peBuild a b c).toList.take 3 = [false, true, false]

/-- 30_encoding.md R62: the five bytes by chunks of the packet, and by the bit table. The bit table is the spec's
own inference (its mark: derived), and which end of a chunk is most significant its decision D5 (log 11). -/
def Obligations.PayloadFollowsTheBitTable : Prop :=
  ∀ a b c : Nibble,
    let chips := (peBuild a b c).toList
    let n (v : Nibble) (k : Nat) : Nat := (v.getLsbD k).toNat
    (∀ p, (peEncode p a b c).map BitVec.toNat =
      [uint (chips.take 8), uint ((chips.drop 8).take 8), uint ((chips.drop 16).take 8),
       uint ((chips.drop 24).take 8),
       match p with
       | .zeroPad => uint (chips.drop 32 ++ [false])
       | .raw7 => uint (chips.drop 32)]) ∧
    (peEncode .zeroPad a b c).map BitVec.toNat =
      [0x49 + 16 * n a 3 + 2 * n a 2, 0x24 + 64 * n a 1 + 8 * n a 0 + n b 3,
       0x92 + 32 * n b 2 + 4 * n b 1, 0x49 + 128 * n b 0 + 16 * n c 3 + 2 * n c 2,
       0x24 + 64 * n c 1 + 8 * n c 0] ∧
    (peEncode .raw7 a b c).map BitVec.toNat =
      [0x49 + 16 * n a 3 + 2 * n a 2, 0x24 + 64 * n a 1 + 8 * n a 0 + n b 3,
       0x92 + 32 * n b 2 + 4 * n b 1, 0x49 + 128 * n b 0 + 16 * n c 3 + 2 * n c 2,
       0x12 + 32 * n c 1 + 4 * n c 0]

/-- 41_packet_encoder.md R88, R89, R91: five bytes under either policy, the first four the same; the last
byte under `RAW7` is half of that under `ZERO_PAD`, which has its two low bits clear. -/
def Obligations.PadPolicyChangesTheLastByteOnly : Prop :=
  ∀ a b c : Nibble,
    (∀ p, (peEncode p a b c).length = 5) ∧
    (peEncode .zeroPad a b c).take 4 = (peEncode .raw7 a b c).take 4 ∧
    ∃ z r, (peEncode .zeroPad a b c)[4]? = some z ∧ (peEncode .raw7 a b c)[4]? = some r ∧
      z.toNat = 2 * r.toNat ∧ z.extractLsb' 0 2 = 0#2 ∧ r.getLsbD 7 = false

/-- 30_encoding.md R76: the payload determines the switch settings and the command, under either
policy. -/
def Obligations.PayloadDeterminesTheRequestFields : Prop :=
  ∀ (p : PadPolicy) (a b c a' b' c' : Nibble),
    peEncode p a b c = peEncode p a' b' c' → a = a' ∧ b = b' ∧ c = c'

/-! ### The seven commands -/

/-- 43_commands.md R116 to R119: OFF, SLOW, MEDIUM, FAST, each with its value, chips, profiles and worked
example. -/
def Obligations.OffAndSpeedCommands : Prop :=
  CommandFacts .off 0b1010#4 0b110010110010#12 [.single, .dual]
    0b010010010010010010010110110110010110010#39
    [0x49, 0x24, 0x96, 0xD9, 0x64] [0x49, 0x24, 0x96, 0xD9, 0x32] ∧
  CommandFacts .slow 0b0010#4 0b010010110010#12 [.single, .dual]
    0b010010010010010010010110110010010110010#39
    [0x49, 0x24, 0x96, 0xC9, 0x64] [0x49, 0x24, 0x96, 0xC9, 0x32] ∧
  CommandFacts .medium 0b0100#4 0b010110010010#12 [.single, .dual]
    0b010010010010010010010110110010110010010#39
    [0x49, 0x24, 0x96, 0xCB, 0x24] [0x49, 0x24, 0x96, 0xCB, 0x12] ∧
  CommandFacts .fast 0b1000#4 0b110010010010#12 [.single, .dual]
    0b010010010010010010010110110110010010010#39
    [0x49, 0x24, 0x96, 0xD9, 0x24] [0x49, 0x24, 0x96, 0xD9, 0x12]

/-- 43_commands.md R120 to R122: LIGHT, LIGHT1, LIGHT2; LIGHT and LIGHT1 are one word under two
profiles; LIGHT2 under `SINGLE` raises `InvalidCommand(1001)` and makes no radio call. -/
def Obligations.LightCommands : Prop :=
  CommandFacts .light 0b0101#4 0b010110010110#12 [.single]
    0b010010010010010010010110110010110010110#39
    [0x49, 0x24, 0x96, 0xCB, 0x2C] [0x49, 0x24, 0x96, 0xCB, 0x16] ∧
  CommandFacts .light1 0b0101#4 0b010110010110#12 [.dual]
    0b010010010010010010010110110010110010110#39
    [0x49, 0x24, 0x96, 0xCB, 0x2C] [0x49, 0x24, 0x96, 0xCB, 0x16] ∧
  CommandFacts .light2 0b1001#4 0b110010010110#12 [.dual]
    0b010010010010010010010110110110010010110#39
    [0x49, 0x24, 0x96, 0xD9, 0x2C] [0x49, 0x24, 0x96, 0xD9, 0x16] ∧
  (∀ hp a b s, exec (.light hp a b) s = exec (.light1 hp a b) s) ∧
  (∀ hp a b s, s.phase = .decode → s.cmd = some 0b0101#4 →
    exec (.light hp a b) s = .next { s with phase := .build }) ∧
  (∀ hp a b s, s.phase = .decode → s.cmd = some 0b1001#4 → s.cfg.profile = .single → s.held = false →
    s.cause = 0#3 → ∃ t, exec (.light2 hp a b) s = .next t ∧ t.cause = 1#3 ∧ t.einfo = 0b1001#4 ∧
      t.Ended ∧ t.trace = s.trace)

/-! ### The steps of the SEND sequence, for every command -/

/-- 42_transmission_driver.md R97: an idle core accepts any of the 8192 words, a command of any kind or
an illegal word; nothing else changes. While an invocation is in progress the presented command is not
taken and has no effect: the step is the same whatever is presented. -/
def Obligations.AcceptLoadsTheRequest : Prop :=
  (∀ (i : Instr) (s : State), s.phase = .idle →
    exec i s = .next { s with
      hp := some i.hp, sw8 := some i.sw8, sw9 := some i.sw9, cmd := some i.cmd,
      rep := 0#4, cause := 0#3, einfo := 0#4, held := false,
      done := false, errf := false, busy := true, phase := .decode }) ∧
  (∀ (w : ReqWord) (s : State), s.phase = .idle →
    runWord w s = .next { s with
      hp := some (w.getLsbD 12), sw8 := some (w.extractLsb' 8 4), sw9 := some (w.extractLsb' 4 4),
      cmd := some (w.extractLsb' 0 4),
      rep := 0#4, cause := 0#3, einfo := 0#4, held := false,
      done := false, errf := false, busy := true, phase := .decode }) ∧
  (∀ (i j : Instr) (s : State), s.phase ≠ .idle → exec i s = exec j s)

/-- 42_transmission_driver.md R98: DECODE passes a valid command; otherwise `InvalidCommand(CMD)`
completes the invocation at once, with no teardown and no radio call. -/
def Obligations.DecodePassesOrRejects : Prop :=
  ∀ (i : Instr) (s : State) (c : Nibble), s.phase = .decode → s.cmd = some c →
    (validCmd s.cfg.profile c = true → exec i s = .next { s with phase := .build }) ∧
    (validCmd s.cfg.profile c = false → s.held = false → s.cause = 0#3 →
      exec i s = .next { s with
        cause := 1#3, einfo := c, errf := true, done := true, busy := false, held := false,
        phase := .idle, hp := none, sw8 := none, sw9 := none, cmd := none, sym := none, pay := [],
        frame := [] })

/-- 42_transmission_driver.md R99: BUILD stores the packet in `SYM` and the payload in `PAY[0..4]`, takes
on the teardown and goes to `CFG_FREQ`; every other `PAY` address and every other register is as before. -/
def Obligations.BuildStoresPacketAndPayload : Prop :=
  ∀ (i : Instr) (s : State) (a b c : Nibble), s.phase = .build →
    s.sw8 = some a → s.sw9 = some b → s.cmd = some c →
    ∃ m, exec i s = .next { s with
        sym := some (peBuild a b c), pay := m, held := true, phase := .cfgFreq } ∧
      Memory.readBytes m 0 5 = some (pePack s.cfg.padPolicy (peBuild a b c)) ∧
      ∀ x, 5 ≤ x → Memory.readByte m x = Memory.readByte s.pay x

/-- 42_transmission_driver.md R100: CFG_FREQ calls `setFrequency(CFG.FREQ_HZ)`; `ok` goes to CFG_POWER
only under `HP`, `fail` raises `RadioConfigurationError(0)`. -/
def Obligations.CfgFreqTunesTheRadio : Prop :=
  ∀ (i : Instr) (s : State) (hp : Bool) (rs : List RadioAnswer), s.phase = .cfgFreq → s.hp = some hp →
    (s.answers = .ok :: rs → exec i s = .next { s with
      answers := rs, outstanding := none,
      trace := s.trace ++ [{ op := .setFrequency s.cfg.freqHz, answer := .ok }],
      phase := if hp then .cfgPower else .cfgMod }) ∧
    (s.answers = .fail :: rs → exec i s = .next (raise (.radioConfigurationError 0#4) { s with
      answers := rs, outstanding := none,
      trace := s.trace ++ [{ op := .setFrequency s.cfg.freqHz, answer := .fail }] }))

/-- 42_transmission_driver.md R101 to R105: each of the other five configuration steps makes its one
call; `ok` goes to the next phase, `fail` raises `RadioConfigurationError` with the call's index.
That a failed `setMaxPower` does so is the spec's own decision D26 (log 11). -/
def Obligations.ConfigurationStepsMakeTheirCalls : Prop :=
  ∀ (i : Instr) (s : State) (rs : List RadioAnswer) (op : RadioOp) (index : BitVec 4) (following : Phase),
    (s.phase, op, index, following) ∈
      [(.cfgPower, .setMaxPower, 1#4, .cfgMod),
       (.cfgMod, .setModulation .amOnOffKeying, 2#4, .cfgRate),
       (.cfgRate, .setDataRate 2400, 3#4, .cfgLen),
       (.cfgLen, .setFixedFrameLength 10, 4#4, .cfgSync),
       (.cfgSync, .setSyncMode .none, 5#4, .frame)] →
    (s.answers = .ok :: rs → exec i s = .next { s with
      answers := rs, outstanding := none, trace := s.trace ++ [{ op := op, answer := .ok }],
      phase := following }) ∧
    (s.answers = .fail :: rs → exec i s = .next (raise (.radioConfigurationError index) { s with
      answers := rs, outstanding := none, trace := s.trace ++ [{ op := op, answer := .fail }] }))

/-- 42_transmission_driver.md R106: FRAME puts five zero bytes and then the payload into `FRAME[0..9]`;
every other `FRAME` address and every other register is as before. -/
def Obligations.FramePrependsTheSpacer : Prop :=
  ∀ (i : Instr) (s : State) (payload : List Byte), s.phase = .frame →
    Memory.readBytes s.pay 0 5 = some payload →
    ∃ m, exec i s = .next { s with frame := m, phase := .tx } ∧
      Memory.readBytes m 0 10 = some ([0x00, 0x00, 0x00, 0x00, 0x00] ++ payload) ∧
      ∀ x, 10 ≤ x → Memory.readByte m x = Memory.readByte s.frame x

/-- 42_transmission_driver.md R107: TX hands the ten bytes of `FRAME` to the radio; `ok` counts it and
stays in TX until the eighth; `fail` raises `TransmitError(REP + 1)` and leaves `REP`. -/
def Obligations.TxSendsTheFrame : Prop :=
  ∀ (i : Instr) (s : State) (bytes : List Byte) (rs : List RadioAnswer), s.phase = .tx → s.rep < 8#4 →
    Memory.readBytes s.frame 0 10 = some bytes →
    (s.answers = .ok :: rs → exec i s = .next { s with
      answers := rs, outstanding := none,
      trace := s.trace ++ [{ op := .transmitRaw bytes, answer := .ok }],
      rep := s.rep + 1#4, phase := if s.rep + 1#4 = 8#4 then .tdIdle else .tx }) ∧
    (s.answers = .fail :: rs → exec i s = .next (raise (.transmitError (s.rep + 1#4)) { s with
      answers := rs, outstanding := none,
      trace := s.trace ++ [{ op := .transmitRaw bytes, answer := .fail }] }))

/-- 42_transmission_driver.md R109: TD_IDLE calls `setIdle` and goes on to TD_CLEANUP whatever the
answer; `fail` is recorded as `TeardownError`, 0, if no cause was recorded before. What a
`fail` does here is the spec's own decision D12 (log 11). -/
def Obligations.TdIdleGoesOnToCleanup : Prop :=
  ∀ (i : Instr) (s : State) (r : RadioAnswer) (rs : List RadioAnswer), s.phase = .tdIdle →
    s.answers = r :: rs →
    exec i s = .next { s with
      answers := rs, outstanding := none, trace := s.trace ++ [{ op := .setIdle, answer := r }],
      cause := if r = .fail ∧ s.cause = 0#3 then 4#3 else s.cause,
      einfo := if r = .fail ∧ s.cause = 0#3 then 0#4 else s.einfo,
      phase := .tdCleanup }

/-- 42_transmission_driver.md R110, R111: TD_CLEANUP calls `cleanup` and completes: the report is set, the
teardown is no longer owed, the latches and data registers are discarded, `REP` stays. -/
def Obligations.TdCleanupCompletes : Prop :=
  ∀ (i : Instr) (s : State) (r : RadioAnswer) (rs : List RadioAnswer) (c : BitVec 3),
    s.phase = .tdCleanup → s.answers = r :: rs →
    c = (if r = .fail ∧ s.cause = 0#3 then 4#3 else s.cause) →
    exec i s = .next { s with
      answers := rs, outstanding := none, trace := s.trace ++ [{ op := .cleanup, answer := r }],
      cause := c, einfo := if r = .fail ∧ s.cause = 0#3 then 1#4 else s.einfo,
      errf := c != 0#3, done := true, busy := false, held := false, phase := .idle,
      hp := none, sw8 := none, sw9 := none, cmd := none, sym := none, pay := [], frame := [] }

/-! ### Exceptions -/

/-- 60_exceptions.md R123: the cause code and the information of each exception; the codes are the spec's
own decision D11 (log 11). -/
def Obligations.ExceptionCodesAndInformation : Prop :=
  ∀ k : BitVec 4,
    ((Exception.invalidCommand k).code = 1#3 ∧ (Exception.invalidCommand k).info = k) ∧
    ((Exception.radioConfigurationError k).code = 2#3 ∧ (Exception.radioConfigurationError k).info = k) ∧
    ((Exception.transmitError k).code = 3#3 ∧ (Exception.transmitError k).info = k) ∧
    ((Exception.teardownError k).code = 4#3 ∧ (Exception.teardownError k).info = k)

/-- 60_exceptions.md R130: taking an exception records it unless one is recorded, and goes to `TD_IDLE`
where a teardown is owed, else straight to completion. -/
def Obligations.RaiseRecordsAndDiverts : Prop :=
  ∀ (e : Exception) (s : State) (c : BitVec 3) (n : BitVec 4),
    c = (if s.cause = 0#3 then e.code else s.cause) → n = (if s.cause = 0#3 then e.info else s.einfo) →
    (s.held = true → raise e s = { s with cause := c, einfo := n, phase := .tdIdle }) ∧
    (s.held = false → raise e s = { s with
      cause := c, einfo := n, errf := c != 0#3, done := true, busy := false, held := false,
      phase := .idle, hp := none, sw8 := none, sw9 := none, cmd := none, sym := none, pay := [],
      frame := [] })

/-- 60_exceptions.md R132: once a cause is recorded nothing before the next ACCEPT changes it or its
information; a later `fail` of a teardown call is in the radio trace all the same. The spec's own decision
D12 (log 11). -/
def Obligations.FirstExceptionWins : Prop :=
  ∀ (i : Instr) (s t : State), s.phase ≠ .idle → s.cause ≠ 0#3 → exec i s = .next t →
    t.cause = s.cause ∧ t.einfo = s.einfo ∧
    (∀ rs, s.phase = .tdIdle → s.answers = .fail :: rs →
      t.trace = s.trace ++ [{ op := .setIdle, answer := .fail }]) ∧
    (∀ rs, s.phase = .tdCleanup → s.answers = .fail :: rs →
      t.trace = s.trace ++ [{ op := .cleanup, answer := .fail }])

/-- A failed configuration call or transmission of a running invocation (a teardown is owed and no cause
is recorded) goes to the teardown with cause, information and `REP` as 60_exceptions.md R125, R126 say. -/
def Obligations.FailedCallForcesTeardown : Prop :=
  ∀ (i : Instr) (s t : State) (op : RadioOp) (rs : List RadioAnswer),
    phaseCall s = some op → s.phase ≠ .tdIdle → s.phase ≠ .tdCleanup →
    s.answers = .fail :: rs → s.held = true → s.cause = 0#3 → exec i s = .next t →
    t.phase = .tdIdle ∧ t.cause = (op.failure (s.rep + 1#4)).code ∧
    t.einfo = (op.failure (s.rep + 1#4)).info ∧ t.rep = s.rep ∧ t.done = s.done ∧
    t.trace = s.trace ++ [{ op := op, answer := .fail }]

/-- 60_exceptions.md R124: a request whose command is not in the profile's set is accepted, rejected one
step later, and leaves the report and no radio call of any kind (the spec's own decision D21, log 11). The list of
requests is the model's own input (log 5). -/
def Obligations.InvalidCommandMakesNoRadioCall : Prop :=
  ∀ (s : State) (w : ReqWord) (ws : List ReqWord), s.phase = .idle → s.resetIn = false →
    s.requests = w :: ws → validCmd s.cfg.profile (reqCmd w) = false →
    Host.Core.run Sys2Proof.core 2 s = .next { s with
      requests := ws, hp := none, sw8 := none, sw9 := none, cmd := none, sym := none, pay := [],
      frame := [], phase := .idle, rep := 0#4, busy := false, done := true, errf := true,
      cause := 1#3, einfo := reqCmd w, held := false }

/-- 60_exceptions.md R133: the completion report is set and the core returns to `IDLE` only in the step in
which `cleanup` is answered, or in DECODE with `InvalidCommand` and no call. -/
def Obligations.DoneRisesOnlyAfterCleanup : Prop :=
  ∀ s t : State, s.Inv → step s = .next t → s.done = false → t.done = true →
    (t.errf = (t.cause != 0#3) ∧ t.busy = false ∧ t.phase = .idle) ∧
    ((∃ r, s.phase = .tdCleanup ∧ t.trace = s.trace ++ [{ op := .cleanup, answer := r }]) ∨
    (s.phase = .decode ∧ t.trace = s.trace ∧ t.cause = 1#3))

/-! ### Frames: what an instruction leaves as it was -/

/-- 10_state.md R23: ACCEPT, completion and reset write the flags as the table says; no other step writes
one. The flags are the spec's own decision D17 (log 11). -/
def Obligations.FlagsAreWrittenByAcceptAndCompletionOnly : Prop :=
  (∀ (i : Instr) (s t : State), exec i s = .next t →
    (s.phase = .idle → t.busy = true ∧ t.done = false ∧ t.errf = false) ∧
    (s.phase ≠ .idle → t.phase = .idle →
      t.busy = false ∧ t.done = true ∧ t.errf = (t.cause != 0#3)) ∧
    (s.phase ≠ .idle → t.phase ≠ .idle →
      t.busy = s.busy ∧ t.done = s.done ∧ t.errf = s.errf)) ∧
  (∀ s : State, (applyReset s).busy = false ∧ (applyReset s).done = false ∧
    (applyReset s).errf = false)

/-- The registers an instruction leaves unchanged, register by register: the latches and `SYM` but for
ACCEPT, BUILD and completion; `REP` but for ACCEPT and TX; `CAUSE` and `EINFO` but for ACCEPT and the
steps that can raise; `HELD` but for ACCEPT, BUILD and completion; the configuration and the host's inputs
always. -/
def Obligations.RegistersKeptByEveryCommand : Prop :=
  ∀ (i : Instr) (s t : State), exec i s = .next t →
    (s.phase ≠ .idle → t.phase ≠ .idle →
      t.hp = s.hp ∧ t.sw8 = s.sw8 ∧ t.sw9 = s.sw9 ∧ t.cmd = s.cmd) ∧
    (s.phase ≠ .build → t.phase ≠ .idle → t.sym = s.sym) ∧
    (s.phase ≠ .idle → s.phase ≠ .tx → t.rep = s.rep) ∧
    (s.phase = .build ∨ s.phase = .frame → t.cause = s.cause ∧ t.einfo = s.einfo) ∧
    (s.phase ≠ .idle → s.phase ≠ .build → t.phase ≠ .idle → t.held = s.held) ∧
    t.cfg = s.cfg ∧ t.requests = s.requests ∧ t.resetIn = s.resetIn ∧
    (phaseCall s = none → t.trace = s.trace ∧ t.answers = s.answers ∧ t.outstanding = s.outstanding)

/-- Every byte of the byte space is unchanged but for the bytes stored to: BUILD stores `PAY[0..4]`, FRAME
stores `FRAME[0..9]`, completion discards both buffers; no other step touches a byte. -/
def Obligations.BytesKeptByEveryCommand : Prop :=
  ∀ (i : Instr) (s t : State), exec i s = .next t →
    (t.phase ≠ .idle → ∀ x, (s.phase = .build → bufSize .pay ≤ x) →
      Memory.readByte t.pay x = Memory.readByte s.pay x) ∧
    (t.phase ≠ .idle → ∀ x, (s.phase = .frame → bufSize .frame ≤ x) →
      Memory.readByte t.frame x = Memory.readByte s.frame x) ∧
    (s.phase ≠ .idle → t.phase = .idle → ∀ x,
      Memory.readByte t.pay x = none ∧ Memory.readByte t.frame x = none)

/-- 20_memory.md R39: `MemRead` returns the bytes of its range, in order; `MemWrite` stores the list byte by
byte, so that `MemRead` reads it back, and every byte outside stays, the other buffer stays, the canonical
form is kept; and no step makes an access outside a buffer. That `MemRead` answers only within the bounds is
the model's fault there (DEDUCED, log 9), that it answers only where every byte holds a value is log 2 (DESIGN
CHOICE), and the canonical form is the model's own. -/
def Obligations.BufferAccessesReadWhatWasWritten : Prop :=
  bufSize .pay = 5 ∧ bufSize .frame = 10 ∧
  (∀ (s : State) (buf : Buf) (a n : Nat) (bytes : List Byte), memRead buf a n s = .ok bytes ↔
    a + n ≤ bufSize buf ∧ bytes.length = n ∧
      ∀ k < n, Memory.readByte (bufMem buf s) (a + k) = bytes[k]?) ∧
  (∀ (s : State) (buf other : Buf) (a : Nat) (bytes : List Byte), a + bytes.length ≤ bufSize buf →
    ∃ t, memWrite buf a bytes s = .ok t ∧ memRead buf a bytes.length t = .ok bytes ∧
      (∀ k < bytes.length, Memory.readByte (bufMem buf t) (a + k) = bytes[k]?) ∧
      (∀ x, x < a ∨ a + bytes.length ≤ x →
        Memory.readByte (bufMem buf t) x = Memory.readByte (bufMem buf s) x) ∧
      (other ≠ buf → bufMem other t = bufMem other s) ∧
      (Memory.wf (bufMem buf s) = true → Memory.wf (bufMem buf t) = true)) ∧
  (∀ (s : State) (b : Buf), step s ≠ .fault (.outsideBuffer b))

/-- 10_state.md R22: `REP` is cleared by ACCEPT and by reset, counts the transmissions answered ok, holds its
value otherwise, never exceeds 8, and is 8 after a success. The reachable states are those of the model's input
fields (log 3, log 5, log 6). -/
def Obligations.RepCountsOkTransmissions : Prop :=
  (∀ (i : Instr) (s t : State), exec i s = .next t →
    (s.phase = .idle → t.rep = 0#4) ∧
    (∀ rs, s.phase = .tx → s.answers = .ok :: rs → t.rep = s.rep + 1#4) ∧
    (s.phase ≠ .idle → (s.phase = .tx → s.answers.head? ≠ some .ok) → t.rep = s.rep)) ∧
  (∀ s : State, (applyReset s).rep = 0#4) ∧
  (∀ s : State, Reachable s → s.rep ≤ 8#4 ∧ (s.done = true → s.cause = 0#3 → s.rep = 8#4))

/-- 20_memory.md R48, R50: a step adds at most one call to the radio trace, at its end, and it is the call
of its phase with the radio's next answer; nothing recorded is ever changed. -/
def Obligations.TraceGrowsByThePhasesCall : Prop :=
  ∀ (i : Instr) (s t : State), exec i s = .next t →
    (t.trace = s.trace ∧ t.answers = s.answers) ∨
    ∃ op r, phaseCall s = some op ∧ s.answers = r :: t.answers ∧
      t.trace = s.trace ++ [{ op := op, answer := r }]

/-- 20_memory.md R49: between two transmissions of an invocation `FRAME` is unchanged, so both calls carry
the same ten bytes. -/
def Obligations.EveryTransmissionCarriesTheSameFrame : Prop :=
  ∀ (i : Instr) (s t : State), s.phase = .tx → exec i s = .next t → t.phase = .tx →
    t.frame = s.frame ∧ phaseCall t = phaseCall s

/-! ### The machine's step -/

/-- With no reset asserted, a step of an idle core is the presented request's instruction, with the
request taken from the host's list; a step of a busy core is the latched request's instruction; a word
that is no command is still accepted; with nothing presented the core waits. The list of requests is the
model's own input (log 5). -/
def Obligations.StepRunsTheDecodedInstruction : Prop :=
  ∀ s : State, s.resetIn = false →
    (∀ i w ws, s.phase = .idle → s.requests = w :: ws → decode s.cfg.profile w = .ok i →
      step s = exec i { s with requests := ws }) ∧
    (∀ i w, s.phase ≠ .idle → latchedWord s = some w → decode s.cfg.profile w = .ok i →
      step s = exec i s) ∧
    (∀ w ws r, s.phase = .idle → s.requests = w :: ws → decode s.cfg.profile w = .error r →
      step s = .next (accept (reqHp w) (reqSw8 w) (reqSw9 w) (reqCmd w) { s with requests := ws })) ∧
    (s.phase = .idle → s.requests = [] → step s = .next s)

/-- Requests presented while busy are not seen by the invocation in progress (20_memory.md R53): the step
is the same whatever the host presents, and leaves it presented. The list of requests is the model's own
input (log 5). -/
def Obligations.PresentedRequestsAreNotSeenWhileBusy : Prop :=
  ∀ (s t : State) (ws : List ReqWord), s.phase ≠ .idle → s.resetIn = false → step s = .next t →
    step { s with requests := ws } = .next { t with requests := ws }

/-- 70_reset_and_hazards.md R147, 10_state.md R34: what reset leaves in every register; the configuration is
not changed; and the state the machine starts in is a reset state. The values are the spec's own
decision D13 (log 11). -/
def Obligations.ResetLeavesTheResetValues : Prop :=
  ∀ s : State, (applyReset s).phase = .idle ∧ (applyReset s).busy = false ∧ (applyReset s).done = false ∧
    (applyReset s).errf = false ∧ (applyReset s).cause = 0#3 ∧ (applyReset s).einfo = 0#4 ∧
    (applyReset s).rep = 0#4 ∧ (applyReset s).held = false ∧ (applyReset s).hp = none ∧
    (applyReset s).sw8 = none ∧ (applyReset s).sw9 = none ∧ (applyReset s).cmd = none ∧
    (applyReset s).sym = none ∧ (∀ x, Memory.readByte (applyReset s).pay x = none) ∧
    (∀ x, Memory.readByte (applyReset s).frame x = none) ∧ (applyReset s).cfg = s.cfg ∧
    (applyReset s).trace = [] ∧ applyReset State.reset = State.reset

/-- Reset asserted in `IDLE` is performed, before any presented request and leaving it presented; asserted
while busy it is refused (70_reset_and_hazards.md R149). The reset input is the model's own (log 6). -/
def Obligations.ResetIsTakenInIdleOnly : Prop :=
  ∀ s : State, s.resetIn = true →
    (s.phase = .idle → ∃ t, step s = .next t ∧ t = { State.reset with
      cfg := s.cfg, requests := s.requests, answers := s.answers }) ∧
    (s.phase ≠ .idle → step s = .refused .resetWhileBusy)

/-- 10_state.md R27, 70_reset_and_hazards.md R150: no step of any kind changes the configuration. -/
def Obligations.NoStepChangesTheConfiguration : Prop :=
  ∀ s t : State, step s = .next t → t.cfg = s.cfg

/-- 60_exceptions.md R144: while the radio gives no answer the core stays in its phase for ever, with that
one call outstanding and everything else unchanged. That the call is recorded in `outstanding` is the
model's reading (log 4). -/
def Obligations.UnansweredCallHangsTheCore : Prop :=
  ∀ (i : Instr) (s : State) (op : RadioOp) (n : Nat), phaseCall s = some op → s.answers = [] →
    s.resetIn = false → (s.phase = .cfgFreq → s.hp ≠ none) → (s.phase = .tx → s.rep < 8#4) →
    exec i s = .next { s with outstanding := some op } ∧
    Host.Core.run Sys2Proof.core (n + 1) s = .next { s with outstanding := some op }

/-- 10_state.md R36: nothing of an earlier invocation is used by a later one. Two idle cores with the same
configuration and the same radio accept a command into states that differ at most in the radio trace and in
the host's inputs. -/
def Obligations.NothingIsCarriedOver : Prop :=
  ∀ (i : Instr) (s s' : State), s.Inv → s'.Inv → s.phase = .idle → s'.phase = .idle →
    s.cfg = s'.cfg → s.answers = s'.answers →
    ∃ t t', exec i s = .next t ∧ exec i s' = .next t' ∧
      t' = { t with trace := t'.trace, requests := t'.requests, resetIn := t'.resetIn }

/-! ### Invariants and whole runs -/

/-- The invariant holds at reset. -/
def Obligations.ResetMeetsTheInvariant : Prop := State.reset.Inv

/-- Every step keeps the invariant, from every state that has it. -/
def Obligations.EveryStepKeepsTheInvariant : Prop :=
  ∀ s t : State, s.Inv → step s = .next t → t.Inv

/-- 10_state.md R35: its eight clauses hold in every reachable state. In clause (e) `IDLE` counts as after `TX`
(DEDUCED, log 10); the host's and the radio's moves are the model's input fields (log 3, log 5, log 6). -/
def Obligations.ReachableStatesMeetTheSpecsInvariants : Prop :=
  ∀ s : State, Reachable s → s.SpecInv

/-- No reachable state faults, and the one refusal is a reset asserted while busy: every read lies after its
write (10_state.md R19). -/
def Obligations.NoReachableStateFaults : Prop :=
  ∀ s : State, Reachable s →
    (∀ f, step s ≠ .fault f) ∧
    (∀ r, step s = .refused r → r = .resetWhileBusy ∧ s.resetIn = true ∧ s.phase ≠ .idle)

/-- `setMaxPower` is called only under the high-power flag: a reachable core in CFG_POWER holds `HP = 1`
(42_transmission_driver.md R101). -/
def Obligations.MaxPowerOnlyUnderHighPower : Prop :=
  ∀ s : State, Reachable s → phaseCall s = some .setMaxPower → s.hp = some true

/-- The end of a run: an ended invocation with nothing presented and no reset stays as it is
(70_reset_and_hazards.md R166), and a reachable busy state has not ended. -/
def Obligations.EndedRunStays : Prop :=
  (∀ (s : State) (n : Nat), s.Ended → s.requests = [] → s.resetIn = false →
    Host.Core.run Sys2Proof.core n s = .next s) ∧
  (∀ s : State, Reachable s → s.busy = true → ¬ s.Ended)

/-- Each command, executed from an idle core under a profile that has its code, with every call answered
ok, runs to its end: 15 radio calls (16 under `HP`) in the order of 42_transmission_driver.md R112, eight
transmissions of its frame, and the report of success. That one execution is one phase, repeated with the same
instruction, is log 7 (DESIGN CHOICE); R112's list is the spec's own inference (its mark: derived). -/
def Obligations.EveryCommandCompletes : Prop :=
  ∀ (i : Instr) (s : State) (rs : List RadioAnswer) (frame : List Byte), s.phase = .idle →
    validCmd s.cfg.profile i.cmd = true →
    s.answers = List.replicate (15 + i.hp.toNat) .ok ++ rs →
    frame = [0x00, 0x00, 0x00, 0x00, 0x00] ++ peEncode s.cfg.padPolicy i.sw8 i.sw9 i.cmd →
    execTimes i (19 + i.hp.toNat) s = .next { s with
      hp := none, sw8 := none, sw9 := none, cmd := none, sym := none, pay := [], frame := [],
      phase := .idle, rep := 8#4, busy := false, done := true, errf := false,
      cause := 0#3, einfo := 0#4, held := false,
      trace := s.trace ++
        (plannedCalls s.cfg.freqHz i.hp frame ++ [RadioOp.setIdle, RadioOp.cleanup]).map
          (fun op => { op := op, answer := .ok }),
      outstanding := none, answers := rs }

/-- Whatever the radio answers, an accepted command ends within 20 steps with the radio trace of
42_transmission_driver.md R112 (the planned calls up to the first that fails, then `setIdle`, `cleanup`), the
first exception in the report, and `REP` the number of transmissions answered ok. The premise is that the
radio answers every call (60_exceptions.md R144). That the first failed call ends the batch is the spec's own
decision D10, and what a failed teardown call does its D12 (log 11); the requests are log 5. -/
def Obligations.EveryInvocationFollowsThePlan : Prop :=
  ∀ (i : Instr) (s : State) (ws : List ReqWord) (plan : List RadioOp), s.phase = .idle →
    s.resetIn = false → s.requests = encode i :: ws → i.wf s.cfg.profile = true →
    plan = plannedCalls s.cfg.freqHz i.hp
      ([0x00, 0x00, 0x00, 0x00, 0x00] ++ peEncode s.cfg.padPolicy i.sw8 i.sw9 i.cmd) →
    plan.length + 2 ≤ s.answers.length →
    ∃ n t, n ≤ 20 ∧ Host.Core.run Sys2Proof.core n s = .next t ∧ t.Ended ∧ t.requests = ws ∧
      t.trace = s.trace ++ invocationTrace plan s.answers ∧
      t.cause = causeOf (firstException 1#4 plan s.answers) ∧
      t.einfo = infoOf (firstException 1#4 plan s.answers) ∧
      t.errf = (t.cause != 0#3) ∧
      t.rep.toNat = okTransmissions (invocationTrace plan s.answers)

/-! ### What the host sees -/

/-- 10_state.md R32: the host reads `BUSY`, `DONE`, `ERRF`, `CAUSE`, `EINFO` and nothing else, so that two cores
that agree in these five read the same; it writes the request and reset and nothing else, so that a write leaves
every register of the core, and the radio's side, as it was. The rule is the spec's own decision D17 (log 11); the
form of the two inputs is the model's (log 5, log 6). -/
def Obligations.HostReadsTheReportAndWritesItsInputs : Prop :=
  (∀ s t : State, hostRead s = hostRead t ↔
    s.busy = t.busy ∧ s.done = t.done ∧ s.errf = t.errf ∧ s.cause = t.cause ∧ s.einfo = t.einfo) ∧
  (∀ (s : State) (words : List ReqWord), hostWrite (.request words) s = { s with requests := words }) ∧
  (∀ (s : State) (asserted : Bool), hostWrite (.reset asserted) s = { s with resetIn := asserted })

/-- Between ACCEPT and completion the host sees no progress: what it reads changes only in a step that records
an exception, so that a step whose call is not answered `fail`, or that has an exception on record already, leaves
the report as it was (10_state.md R23 to R25, R32; the flags and what the host reads are the spec's own decision D17,
log 11). -/
def Obligations.HostSeesNoProgress : Prop :=
  ∀ (i : Instr) (s t : State), s.Inv → exec i s = .next t → s.phase ≠ .idle → t.phase ≠ .idle →
    (s.answers.head? ≠ some .fail ∨ s.cause ≠ 0#3) → hostRead t = hostRead s
end

