-- ==== Sys2Proof/Laws/Encoder.lean ====
section
/-!
SUPPORT. The encoders chip by chip, and the fields of a packed request word.
-/

namespace Sys2Proof.Machine

/-- The chips of the register are the chip string. -/
@[simp] theorem peBuild_toList (a b c : Nibble) : (peBuild a b c).toList = peChips a b c := rfl

/-- The twelve chips of a nibble (30_encoding.md R59). -/
theorem seEncNib_chips (v : Nibble) : seEncNib v =
    [v.getLsbD 3, true, false, v.getLsbD 2, true, false, v.getLsbD 1, true, false,
     v.getLsbD 0, true, false] := rfl

/-- The 39 chips of a packet (30_encoding.md R60). -/
theorem peChips_chips (a b c : Nibble) : peChips a b c =
    [false, true, false,
     a.getLsbD 3, true, false, a.getLsbD 2, true, false, a.getLsbD 1, true, false,
     a.getLsbD 0, true, false,
     b.getLsbD 3, true, false, b.getLsbD 2, true, false, b.getLsbD 1, true, false,
     b.getLsbD 0, true, false,
     c.getLsbD 3, true, false, c.getLsbD 2, true, false, c.getLsbD 1, true, false,
     c.getLsbD 0, true, false] := rfl

end Sys2Proof.Machine

namespace Sys2Proof

/-! ### Request words -/

@[simp] theorem reqHp_packReq (hp : Bool) (a b c : Nibble) : reqHp (packReq hp a b c) = hp := by
  simp only [reqHp, packReq, BitVec.getLsbD_append]
  simp

@[simp] theorem reqSw8_packReq (hp : Bool) (a b c : Nibble) : reqSw8 (packReq hp a b c) = a := by
  ext i hi
  simp only [reqSw8, packReq, BitVec.getElem_extractLsb', BitVec.getLsbD_append]
  simp; grind

@[simp] theorem reqSw9_packReq (hp : Bool) (a b c : Nibble) : reqSw9 (packReq hp a b c) = b := by
  ext i hi
  simp only [reqSw9, packReq, BitVec.getElem_extractLsb', BitVec.getLsbD_append]
  simp; grind

@[simp] theorem reqCmd_packReq (hp : Bool) (a b c : Nibble) : reqCmd (packReq hp a b c) = c := by
  ext i hi
  simp only [reqCmd, packReq, BitVec.getElem_extractLsb', BitVec.getLsbD_append]
  simp; grind

/-- A valid word decodes to an instruction of the profile with the word's fields. -/
theorem decode_valid {p : Profile} {w : ReqWord} (h : validCmd p (reqCmd w) = true) :
    ∃ i, decode p w = .ok i ∧ i.wf p = true ∧
      i.hp = reqHp w ∧ i.sw8 = reqSw8 w ∧ i.sw9 = reqSw9 w ∧ i.cmd = reqCmd w := by
  simp only [decode]
  split; · exact ⟨_, rfl, by simp_all [Instr.wf, Instr.cmd, Instr.hp, Instr.sw8, Instr.sw9]⟩
  split; · exact ⟨_, rfl, by simp_all [Instr.wf, Instr.cmd, Instr.hp, Instr.sw8, Instr.sw9]⟩
  split; · exact ⟨_, rfl, by simp_all [Instr.wf, Instr.cmd, Instr.hp, Instr.sw8, Instr.sw9]⟩
  split; · exact ⟨_, rfl, by simp_all [Instr.wf, Instr.cmd, Instr.hp, Instr.sw8, Instr.sw9]⟩
  split
  · cases p <;> exact ⟨_, rfl, by simp_all [Instr.wf, Instr.cmd, Instr.hp, Instr.sw8, Instr.sw9]⟩
  split
  · next hc =>
    cases p
    · rw [hc] at h; exact absurd h (by decide)
    · exact ⟨_, rfl, by simp_all [Instr.wf, Instr.cmd, Instr.hp, Instr.sw8, Instr.sw9]⟩
  · exfalso; revert h; generalize reqCmd w = c at *; revert c; cases p <;> decide

/-- Any other word is an invalid command. -/
theorem decode_invalid {p : Profile} {w : ReqWord} (h : validCmd p (reqCmd w) = false) :
    decode p w = .error (.invalidCommand (reqCmd w)) := by
  simp only [decode]
  generalize reqCmd w = c at *
  have : c ≠ 10#4 ∧ c ≠ 2#4 ∧ c ≠ 4#4 ∧ c ≠ 8#4 ∧ c ≠ 5#4 ∧ (p = .dual → c ≠ 9#4) := by
    revert c; cases p <;> decide
  cases p <;> simp_all

/-- A request word is what its fields pack to. -/
theorem packReq_fields (w : ReqWord) : packReq (reqHp w) (reqSw8 w) (reqSw9 w) (reqCmd w) = w := by
  ext i hi
  rw [← BitVec.getLsbD_eq_getElem, ← BitVec.getLsbD_eq_getElem]
  simp only [reqHp, reqSw8, reqSw9, reqCmd, packReq, BitVec.getLsbD_append,
    BitVec.getLsbD_extractLsb', BitVec.getLsbD_ofBool]
  interval_cases i <;> simp

end Sys2Proof
end

