-- ==== Sys2Proof/Laws/Memory.lean ====
section
/-!
SUPPORT. The byte space: read after write, the canonical form, and the two access primitives
(20_memory.md R39).
-/

namespace Sys2Proof.Machine

/-! ### One byte -/

@[simp] theorem readByte_nil (a : Nat) : Memory.readByte [] a = none := rfl

@[simp] theorem readByte_writeByte_same (m : Memory) (a : Nat) (b : Byte) :
    Memory.readByte (Memory.writeByte m a b) a = some b := by
  induction m with
  | nil => simp [Memory.writeByte, Memory.readByte]
  | cons c rest ih =>
    obtain ⟨x, v⟩ := c
    simp only [Memory.writeByte]
    split
    · simp [Memory.readByte]
    · split
      · simp [Memory.readByte]
      · next h => simp [Memory.readByte, ih, Ne.symm h]

theorem readByte_writeByte_other (m : Memory) {a x : Nat} (b : Byte) (h : x ≠ a) :
    Memory.readByte (Memory.writeByte m a b) x = Memory.readByte m x := by
  induction m with
  | nil => simp [Memory.writeByte, Memory.readByte, Ne.symm h]
  | cons c rest ih =>
    obtain ⟨y, v⟩ := c
    simp only [Memory.writeByte]
    split
    · simp [Memory.readByte, Ne.symm h]
    · split
      · next hy => subst hy; simp [Memory.readByte, Ne.symm h]
      · simp only [Memory.readByte, ih]

/-! ### The canonical form -/

theorem wf_cons (x : Nat) (v : Byte) (rest : Memory) :
    Memory.wf ((x, v) :: rest) = true ↔
      (∀ c, rest.head? = some c → x < c.1) ∧ Memory.wf rest = true := by
  cases rest with
  | nil => simp [Memory.wf]
  | cons c rest => obtain ⟨y, w⟩ := c; simp [Memory.wf]

theorem head_writeByte (m : Memory) (a : Nat) (b : Byte) (c : Host.Cell)
    (h : (Memory.writeByte m a b).head? = some c) : c.1 = a ∨ m.head? = some c := by
  cases m with
  | nil => simp only [Memory.writeByte, List.head?_cons, Option.some.injEq] at h; simp [← h]
  | cons d rest =>
    obtain ⟨x, v⟩ := d
    simp only [Memory.writeByte] at h
    split at h
    · simp only [List.head?_cons, Option.some.injEq] at h; simp [← h]
    · split at h
      · simp only [List.head?_cons, Option.some.injEq] at h; simp [← h]
      · exact .inr (by simpa using h)

theorem wf_writeByte (m : Memory) (a : Nat) (b : Byte) (h : Memory.wf m = true) :
    Memory.wf (Memory.writeByte m a b) = true := by
  induction m with
  | nil => rfl
  | cons c rest ih =>
    obtain ⟨x, v⟩ := c
    have hr := (wf_cons x v rest).mp h
    simp only [Memory.writeByte]
    split
    · next hlt => simp [Memory.wf, hlt, h]
    · split
      · next heq => subst heq; exact (wf_cons a b rest).mpr hr
      · refine (wf_cons _ _ _).mpr ⟨fun d hd => ?_, ih hr.2⟩
        rcases head_writeByte rest a b d hd with hd | hd
        · omega
        · exact hr.1 d hd

theorem below_writeByte (m : Memory) {n a : Nat} (b : Byte) (ha : a < n)
    (h : Memory.below n m = true) : Memory.below n (Memory.writeByte m a b) = true := by
  induction m with
  | nil => simp [Memory.writeByte, Memory.below, ha]
  | cons c rest ih =>
    obtain ⟨x, v⟩ := c
    simp only [Memory.below, List.all_cons, Bool.and_eq_true, decide_eq_true_eq] at h ih ⊢
    simp only [Memory.writeByte]
    split
    · simp [ha, h.1, h.2]
    · split
      · simp [ha, h.2]
      · simp [h.1, ih h.2]

/-! ### Several bytes -/

theorem wf_writeBytes (bytes : List Byte) (m : Memory) (a : Nat) (h : Memory.wf m = true) :
    Memory.wf (Memory.writeBytes m a bytes) = true := by
  induction bytes generalizing m a with
  | nil => exact h
  | cons b rest ih => exact ih _ _ (wf_writeByte m a b h)

theorem below_writeBytes (bytes : List Byte) (m : Memory) {n a : Nat} (ha : a + bytes.length ≤ n)
    (h : Memory.below n m = true) : Memory.below n (Memory.writeBytes m a bytes) = true := by
  induction bytes generalizing m a with
  | nil => exact h
  | cons b rest ih =>
    simp only [List.length_cons] at ha
    exact ih _ (by omega) (below_writeByte m b (by omega) h)

theorem readByte_writeBytes_outside (bytes : List Byte) (m : Memory) {a x : Nat}
    (h : x < a ∨ a + bytes.length ≤ x) :
    Memory.readByte (Memory.writeBytes m a bytes) x = Memory.readByte m x := by
  induction bytes generalizing m a with
  | nil => rfl
  | cons b rest ih =>
    simp only [List.length_cons] at h
    rw [Memory.writeBytes, ih _ (by omega), readByte_writeByte_other _ _ (by omega)]

/-- Reading bytes depends on those bytes only. -/
theorem readBytes_congr (n : Nat) {m m' : Memory} {a : Nat}
    (h : ∀ x, a ≤ x → x < a + n → Memory.readByte m x = Memory.readByte m' x) :
    Memory.readBytes m a n = Memory.readBytes m' a n := by
  induction n generalizing a with
  | zero => rfl
  | succ n ih =>
    have hr := ih (a := a + 1) fun x h1 h2 => h x (by omega) (by omega)
    simp only [Memory.readBytes, h a (by omega) (by omega), hr]

/-- What was stored is read back. -/
@[simp] theorem readBytes_writeBytes (bytes : List Byte) (m : Memory) (a : Nat) :
    Memory.readBytes (Memory.writeBytes m a bytes) a bytes.length = some bytes := by
  induction bytes generalizing m a with
  | nil => rfl
  | cons b rest ih =>
    simp only [Memory.writeBytes, List.length_cons, Memory.readBytes, ih,
      readByte_writeBytes_outside rest _ (a := a + 1) (x := a) (by omega), readByte_writeByte_same]

theorem readBytes_length {m : Memory} {a n : Nat} {bytes : List Byte}
    (h : Memory.readBytes m a n = some bytes) : bytes.length = n := by
  induction n generalizing a bytes with
  | zero => simp only [Memory.readBytes, Option.some.injEq] at h; simp [← h]
  | succ n ih =>
    simp only [Memory.readBytes] at h
    split at h
    · next hr => simp only [Option.some.injEq] at h; simp [← h, ih hr]
    · simp at h

/-- Reading a range answers exactly the list of its bytes. -/
theorem readBytes_eq_some {m : Memory} {a n : Nat} {bytes : List Byte} :
    Memory.readBytes m a n = some bytes ↔
      bytes.length = n ∧ ∀ k < n, Memory.readByte m (a + k) = bytes[k]? := by
  induction n generalizing a bytes with
  | zero =>
    simp only [Memory.readBytes, Option.some.injEq, Nat.not_lt_zero, false_implies, implies_true,
      and_true, List.length_eq_zero_iff]
    exact eq_comm
  | succ n ih =>
    constructor
    · intro h
      refine ⟨readBytes_length h, ?_⟩
      simp only [Memory.readBytes] at h
      split at h
      · next b rest hb hr =>
        simp only [Option.some.injEq] at h
        subst h
        rintro (_ | k) hk
        · simpa using hb
        · simpa [Nat.add_assoc, Nat.add_comm 1 k] using (ih.mp hr).2 k (by omega)
      · simp at h
    · rintro ⟨hl, hk⟩
      match bytes, hl with
      | b :: rest, hl =>
        have hb : Memory.readByte m a = some b := by simpa using hk 0 (by omega)
        have hr : Memory.readBytes m (a + 1) n = some rest :=
          ih.mpr ⟨by simpa using hl, fun k h => by
            simpa [Nat.add_assoc, Nat.add_comm 1 k] using hk (k + 1) (by omega)⟩
        simp [Memory.readBytes, hb, hr]

/-- Two adjacent ranges read as one. -/
theorem readBytes_append {m : Memory} {a j k : Nat} {xs ys : List Byte}
    (hx : Memory.readBytes m a j = some xs) (hy : Memory.readBytes m (a + j) k = some ys) :
    Memory.readBytes m a (j + k) = some (xs ++ ys) := by
  induction j generalizing a xs with
  | zero =>
    simp only [Memory.readBytes, Option.some.injEq] at hx
    subst hx; simpa using hy
  | succ j ih =>
    simp only [Memory.readBytes] at hx
    split at hx
    · next b rest hb hr =>
      simp only [Option.some.injEq] at hx
      subst hx
      have := ih hr (by simpa [Nat.add_assoc, Nat.add_comm 1 j] using hy)
      simp [Nat.succ_add, Memory.readBytes, hb, this]
    · simp at hx

/-- The spacer and then five bytes, as FRAME stores them, read back in two ranges. -/
theorem readBytes_spacer_payload (m : Memory) {payload : List Byte} (hl : payload.length = 5) :
    Memory.readBytes (Memory.writeBytes (Memory.writeBytes m 0 spacer) 5 payload) 0 5 = some spacer ∧
    Memory.readBytes (Memory.writeBytes (Memory.writeBytes m 0 spacer) 5 payload) 5 5 = some payload := by
  constructor
  · rw [readBytes_congr (m' := Memory.writeBytes m 0 spacer) 5]
    · exact readBytes_writeBytes spacer m 0
    · intro x h1 h2; exact readByte_writeBytes_outside _ _ (by omega)
  · have := readBytes_writeBytes payload (Memory.writeBytes m 0 spacer) 5
    rwa [hl] at this

/-! ### The access primitives -/

/-- `MemRead` answers the bytes of the range, or faults naming why. -/
theorem memRead_ok {buf : Buf} {a n : Nat} {s : State} {bytes : List Byte} (hb : a + n ≤ bufSize buf)
    (h : Memory.readBytes (bufMem buf s) a n = some bytes) : memRead buf a n s = .ok bytes := by
  simp [memRead, hb, h, valueOf]

theorem memRead_eq_ok {buf : Buf} {a n : Nat} {s : State} {bytes : List Byte}
    (h : memRead buf a n s = .ok bytes) :
    a + n ≤ bufSize buf ∧ Memory.readBytes (bufMem buf s) a n = some bytes := by
  simp only [memRead, valueOf] at h
  split at h
  · next hb => split at h <;> simp_all
  · simp at h

/-- `MemWrite` inside the buffer stores the bytes. -/
theorem memWrite_ok {buf : Buf} {a : Nat} {bytes : List Byte} {s : State}
    (hb : a + bytes.length ≤ bufSize buf) :
    memWrite buf a bytes s = .ok (setBufMem buf (Memory.writeBytes (bufMem buf s) a bytes) s) := by
  simp [memWrite, hb]

/-- `MemWrite` keeps the canonical form of both buffers. -/
theorem memWrite_wf {buf : Buf} {a : Nat} {bytes : List Byte} {s t : State}
    (h : memWrite buf a bytes s = .ok t) (hp : Memory.wf s.pay = true) (hf : Memory.wf s.frame = true) :
    Memory.wf t.pay = true ∧ Memory.wf t.frame = true := by
  simp only [memWrite] at h
  split at h
  · cases h
    cases buf
    · exact ⟨wf_writeBytes _ _ _ hp, hf⟩
    · exact ⟨hp, wf_writeBytes _ _ _ hf⟩
  · cases h

/-- The buffers are in canonical form after reset. -/
theorem reset_wf : Memory.wf State.reset.pay = true ∧ Memory.wf State.reset.frame = true := ⟨rfl, rfl⟩

end Sys2Proof.Machine
end

