-- ==== Sys2Proof/Laws/State.lean ====
section
/-!
SUPPORT. What each named update of the state does to each field, so that no proof unfolds a record
update; and what taking an exception does.
-/

namespace Sys2Proof.Machine

/-! ### `accept` -/

@[simp] theorem accept_hp (hp : Bool) (sw8 sw9 cmd : Nibble) (s : State) :
    (accept hp sw8 sw9 cmd s).hp = some hp := rfl

@[simp] theorem accept_sw8 (hp : Bool) (sw8 sw9 cmd : Nibble) (s : State) :
    (accept hp sw8 sw9 cmd s).sw8 = some sw8 := rfl

@[simp] theorem accept_sw9 (hp : Bool) (sw8 sw9 cmd : Nibble) (s : State) :
    (accept hp sw8 sw9 cmd s).sw9 = some sw9 := rfl

@[simp] theorem accept_cmd (hp : Bool) (sw8 sw9 cmd : Nibble) (s : State) :
    (accept hp sw8 sw9 cmd s).cmd = some cmd := rfl

@[simp] theorem accept_sym (hp : Bool) (sw8 sw9 cmd : Nibble) (s : State) :
    (accept hp sw8 sw9 cmd s).sym = s.sym := rfl

@[simp] theorem accept_pay (hp : Bool) (sw8 sw9 cmd : Nibble) (s : State) :
    (accept hp sw8 sw9 cmd s).pay = s.pay := rfl

@[simp] theorem accept_frame (hp : Bool) (sw8 sw9 cmd : Nibble) (s : State) :
    (accept hp sw8 sw9 cmd s).frame = s.frame := rfl

@[simp] theorem accept_phase (hp : Bool) (sw8 sw9 cmd : Nibble) (s : State) :
    (accept hp sw8 sw9 cmd s).phase = .decode := rfl

@[simp] theorem accept_rep (hp : Bool) (sw8 sw9 cmd : Nibble) (s : State) :
    (accept hp sw8 sw9 cmd s).rep = 0#4 := rfl

@[simp] theorem accept_busy (hp : Bool) (sw8 sw9 cmd : Nibble) (s : State) :
    (accept hp sw8 sw9 cmd s).busy = true := rfl

@[simp] theorem accept_done (hp : Bool) (sw8 sw9 cmd : Nibble) (s : State) :
    (accept hp sw8 sw9 cmd s).done = false := rfl

@[simp] theorem accept_errf (hp : Bool) (sw8 sw9 cmd : Nibble) (s : State) :
    (accept hp sw8 sw9 cmd s).errf = false := rfl

@[simp] theorem accept_cause (hp : Bool) (sw8 sw9 cmd : Nibble) (s : State) :
    (accept hp sw8 sw9 cmd s).cause = 0#3 := rfl

@[simp] theorem accept_einfo (hp : Bool) (sw8 sw9 cmd : Nibble) (s : State) :
    (accept hp sw8 sw9 cmd s).einfo = 0#4 := rfl

@[simp] theorem accept_held (hp : Bool) (sw8 sw9 cmd : Nibble) (s : State) :
    (accept hp sw8 sw9 cmd s).held = false := rfl

@[simp] theorem accept_cfg (hp : Bool) (sw8 sw9 cmd : Nibble) (s : State) :
    (accept hp sw8 sw9 cmd s).cfg = s.cfg := rfl

@[simp] theorem accept_trace (hp : Bool) (sw8 sw9 cmd : Nibble) (s : State) :
    (accept hp sw8 sw9 cmd s).trace = s.trace := rfl

@[simp] theorem accept_outstanding (hp : Bool) (sw8 sw9 cmd : Nibble) (s : State) :
    (accept hp sw8 sw9 cmd s).outstanding = s.outstanding := rfl

@[simp] theorem accept_requests (hp : Bool) (sw8 sw9 cmd : Nibble) (s : State) :
    (accept hp sw8 sw9 cmd s).requests = s.requests := rfl

@[simp] theorem accept_resetIn (hp : Bool) (sw8 sw9 cmd : Nibble) (s : State) :
    (accept hp sw8 sw9 cmd s).resetIn = s.resetIn := rfl

@[simp] theorem accept_answers (hp : Bool) (sw8 sw9 cmd : Nibble) (s : State) :
    (accept hp sw8 sw9 cmd s).answers = s.answers := rfl

/-! ### `complete` -/

@[simp] theorem complete_hp (c : BitVec 3) (s : State) :
    (complete c s).hp = none := rfl

@[simp] theorem complete_sw8 (c : BitVec 3) (s : State) :
    (complete c s).sw8 = none := rfl

@[simp] theorem complete_sw9 (c : BitVec 3) (s : State) :
    (complete c s).sw9 = none := rfl

@[simp] theorem complete_cmd (c : BitVec 3) (s : State) :
    (complete c s).cmd = none := rfl

@[simp] theorem complete_sym (c : BitVec 3) (s : State) :
    (complete c s).sym = none := rfl

@[simp] theorem complete_pay (c : BitVec 3) (s : State) :
    (complete c s).pay = [] := rfl

@[simp] theorem complete_frame (c : BitVec 3) (s : State) :
    (complete c s).frame = [] := rfl

@[simp] theorem complete_phase (c : BitVec 3) (s : State) :
    (complete c s).phase = .idle := rfl

@[simp] theorem complete_rep (c : BitVec 3) (s : State) :
    (complete c s).rep = s.rep := rfl

@[simp] theorem complete_busy (c : BitVec 3) (s : State) :
    (complete c s).busy = false := rfl

@[simp] theorem complete_done (c : BitVec 3) (s : State) :
    (complete c s).done = true := rfl

@[simp] theorem complete_errf (c : BitVec 3) (s : State) :
    (complete c s).errf = (c != 0#3) := rfl

@[simp] theorem complete_cause (c : BitVec 3) (s : State) :
    (complete c s).cause = s.cause := rfl

@[simp] theorem complete_einfo (c : BitVec 3) (s : State) :
    (complete c s).einfo = s.einfo := rfl

@[simp] theorem complete_held (c : BitVec 3) (s : State) :
    (complete c s).held = false := rfl

@[simp] theorem complete_cfg (c : BitVec 3) (s : State) :
    (complete c s).cfg = s.cfg := rfl

@[simp] theorem complete_trace (c : BitVec 3) (s : State) :
    (complete c s).trace = s.trace := rfl

@[simp] theorem complete_outstanding (c : BitVec 3) (s : State) :
    (complete c s).outstanding = s.outstanding := rfl

@[simp] theorem complete_requests (c : BitVec 3) (s : State) :
    (complete c s).requests = s.requests := rfl

@[simp] theorem complete_resetIn (c : BitVec 3) (s : State) :
    (complete c s).resetIn = s.resetIn := rfl

@[simp] theorem complete_answers (c : BitVec 3) (s : State) :
    (complete c s).answers = s.answers := rfl

/-! ### `answered` -/

@[simp] theorem answered_hp (op : RadioOp) (r : RadioAnswer) (rs : List RadioAnswer) (s : State) :
    (answered op r rs s).hp = s.hp := rfl

@[simp] theorem answered_sw8 (op : RadioOp) (r : RadioAnswer) (rs : List RadioAnswer) (s : State) :
    (answered op r rs s).sw8 = s.sw8 := rfl

@[simp] theorem answered_sw9 (op : RadioOp) (r : RadioAnswer) (rs : List RadioAnswer) (s : State) :
    (answered op r rs s).sw9 = s.sw9 := rfl

@[simp] theorem answered_cmd (op : RadioOp) (r : RadioAnswer) (rs : List RadioAnswer) (s : State) :
    (answered op r rs s).cmd = s.cmd := rfl

@[simp] theorem answered_sym (op : RadioOp) (r : RadioAnswer) (rs : List RadioAnswer) (s : State) :
    (answered op r rs s).sym = s.sym := rfl

@[simp] theorem answered_pay (op : RadioOp) (r : RadioAnswer) (rs : List RadioAnswer) (s : State) :
    (answered op r rs s).pay = s.pay := rfl

@[simp] theorem answered_frame (op : RadioOp) (r : RadioAnswer) (rs : List RadioAnswer) (s : State) :
    (answered op r rs s).frame = s.frame := rfl

@[simp] theorem answered_phase (op : RadioOp) (r : RadioAnswer) (rs : List RadioAnswer) (s : State) :
    (answered op r rs s).phase = s.phase := rfl

@[simp] theorem answered_rep (op : RadioOp) (r : RadioAnswer) (rs : List RadioAnswer) (s : State) :
    (answered op r rs s).rep = s.rep := rfl

@[simp] theorem answered_busy (op : RadioOp) (r : RadioAnswer) (rs : List RadioAnswer) (s : State) :
    (answered op r rs s).busy = s.busy := rfl

@[simp] theorem answered_done (op : RadioOp) (r : RadioAnswer) (rs : List RadioAnswer) (s : State) :
    (answered op r rs s).done = s.done := rfl

@[simp] theorem answered_errf (op : RadioOp) (r : RadioAnswer) (rs : List RadioAnswer) (s : State) :
    (answered op r rs s).errf = s.errf := rfl

@[simp] theorem answered_cause (op : RadioOp) (r : RadioAnswer) (rs : List RadioAnswer) (s : State) :
    (answered op r rs s).cause = s.cause := rfl

@[simp] theorem answered_einfo (op : RadioOp) (r : RadioAnswer) (rs : List RadioAnswer) (s : State) :
    (answered op r rs s).einfo = s.einfo := rfl

@[simp] theorem answered_held (op : RadioOp) (r : RadioAnswer) (rs : List RadioAnswer) (s : State) :
    (answered op r rs s).held = s.held := rfl

@[simp] theorem answered_cfg (op : RadioOp) (r : RadioAnswer) (rs : List RadioAnswer) (s : State) :
    (answered op r rs s).cfg = s.cfg := rfl

@[simp] theorem answered_trace (op : RadioOp) (r : RadioAnswer) (rs : List RadioAnswer) (s : State) :
    (answered op r rs s).trace = s.trace ++ [{ op := op, answer := r }] := rfl

@[simp] theorem answered_outstanding (op : RadioOp) (r : RadioAnswer) (rs : List RadioAnswer) (s : State) :
    (answered op r rs s).outstanding = none := rfl

@[simp] theorem answered_requests (op : RadioOp) (r : RadioAnswer) (rs : List RadioAnswer) (s : State) :
    (answered op r rs s).requests = s.requests := rfl

@[simp] theorem answered_resetIn (op : RadioOp) (r : RadioAnswer) (rs : List RadioAnswer) (s : State) :
    (answered op r rs s).resetIn = s.resetIn := rfl

@[simp] theorem answered_answers (op : RadioOp) (r : RadioAnswer) (rs : List RadioAnswer) (s : State) :
    (answered op r rs s).answers = rs := rfl

/-! ### `awaiting` -/

@[simp] theorem awaiting_hp (op : RadioOp) (s : State) :
    (awaiting op s).hp = s.hp := rfl

@[simp] theorem awaiting_sw8 (op : RadioOp) (s : State) :
    (awaiting op s).sw8 = s.sw8 := rfl

@[simp] theorem awaiting_sw9 (op : RadioOp) (s : State) :
    (awaiting op s).sw9 = s.sw9 := rfl

@[simp] theorem awaiting_cmd (op : RadioOp) (s : State) :
    (awaiting op s).cmd = s.cmd := rfl

@[simp] theorem awaiting_sym (op : RadioOp) (s : State) :
    (awaiting op s).sym = s.sym := rfl

@[simp] theorem awaiting_pay (op : RadioOp) (s : State) :
    (awaiting op s).pay = s.pay := rfl

@[simp] theorem awaiting_frame (op : RadioOp) (s : State) :
    (awaiting op s).frame = s.frame := rfl

@[simp] theorem awaiting_phase (op : RadioOp) (s : State) :
    (awaiting op s).phase = s.phase := rfl

@[simp] theorem awaiting_rep (op : RadioOp) (s : State) :
    (awaiting op s).rep = s.rep := rfl

@[simp] theorem awaiting_busy (op : RadioOp) (s : State) :
    (awaiting op s).busy = s.busy := rfl

@[simp] theorem awaiting_done (op : RadioOp) (s : State) :
    (awaiting op s).done = s.done := rfl

@[simp] theorem awaiting_errf (op : RadioOp) (s : State) :
    (awaiting op s).errf = s.errf := rfl

@[simp] theorem awaiting_cause (op : RadioOp) (s : State) :
    (awaiting op s).cause = s.cause := rfl

@[simp] theorem awaiting_einfo (op : RadioOp) (s : State) :
    (awaiting op s).einfo = s.einfo := rfl

@[simp] theorem awaiting_held (op : RadioOp) (s : State) :
    (awaiting op s).held = s.held := rfl

@[simp] theorem awaiting_cfg (op : RadioOp) (s : State) :
    (awaiting op s).cfg = s.cfg := rfl

@[simp] theorem awaiting_trace (op : RadioOp) (s : State) :
    (awaiting op s).trace = s.trace := rfl

@[simp] theorem awaiting_outstanding (op : RadioOp) (s : State) :
    (awaiting op s).outstanding = some op := rfl

@[simp] theorem awaiting_requests (op : RadioOp) (s : State) :
    (awaiting op s).requests = s.requests := rfl

@[simp] theorem awaiting_resetIn (op : RadioOp) (s : State) :
    (awaiting op s).resetIn = s.resetIn := rfl

@[simp] theorem awaiting_answers (op : RadioOp) (s : State) :
    (awaiting op s).answers = s.answers := rfl

/-! ### Recording a cause and taking an exception -/

theorem recordCause_of_zero (e : Exception) {s : State} (h : s.cause = 0#3) :
    recordCause e s = { s with cause := e.code, einfo := e.info } := by
  simp [recordCause, h]

theorem recordCause_of_ne (e : Exception) {s : State} (h : s.cause ≠ 0#3) : recordCause e s = s := by
  simp [recordCause, h]

/-- Recording a cause changes `CAUSE` and `EINFO` only. -/
theorem recordCause_cases (e : Exception) (s : State) :
    (s.cause = 0#3 ∧ recordCause e s = { s with cause := e.code, einfo := e.info }) ∨
      (s.cause ≠ 0#3 ∧ recordCause e s = s) := by
  by_cases h : s.cause = 0#3
  · exact .inl ⟨h, recordCause_of_zero e h⟩
  · exact .inr ⟨h, recordCause_of_ne e h⟩

theorem recordCause_cause (e : Exception) (s : State) :
    (recordCause e s).cause = if s.cause = 0#3 then e.code else s.cause := by
  unfold recordCause; split <;> rfl

theorem recordCause_einfo (e : Exception) (s : State) :
    (recordCause e s).einfo = if s.cause = 0#3 then e.info else s.einfo := by
  unfold recordCause; split <;> rfl

@[simp] theorem recordCause_held (e : Exception) (s : State) : (recordCause e s).held = s.held := by
  unfold recordCause; split <;> rfl

/-- Taking an exception while a teardown is owed: to `TD_IDLE`, nothing else but the cause. -/
theorem raise_of_held (e : Exception) {s : State} (h : s.held = true) :
    raise e s = { recordCause e s with phase := .tdIdle } := by
  simp [raise, divert, h]

/-- Taking an exception while no teardown is owed: straight to completion. -/
theorem raise_of_not_held (e : Exception) {s : State} (h : s.held = false) :
    raise e s = complete (recordCause e s).cause (recordCause e s) := by
  simp [raise, divert, h]

/-- Taking an exception goes to the teardown, or completes. -/
theorem raise_cases (e : Exception) (s : State) :
    (s.held = true ∧ raise e s = { recordCause e s with phase := .tdIdle }) ∨
      (s.held = false ∧ raise e s = complete (recordCause e s).cause (recordCause e s)) := by
  cases h : s.held
  · exact .inr ⟨rfl, raise_of_not_held e h⟩
  · exact .inl ⟨rfl, raise_of_held e h⟩

@[simp] theorem recordCause_cfg (e : Exception) (s : State) :
    (recordCause e s).cfg = s.cfg := by
  unfold recordCause; split <;> rfl

@[simp] theorem recordCause_trace (e : Exception) (s : State) :
    (recordCause e s).trace = s.trace := by
  unfold recordCause; split <;> rfl

@[simp] theorem recordCause_outstanding (e : Exception) (s : State) :
    (recordCause e s).outstanding = s.outstanding := by
  unfold recordCause; split <;> rfl

@[simp] theorem recordCause_requests (e : Exception) (s : State) :
    (recordCause e s).requests = s.requests := by
  unfold recordCause; split <;> rfl

@[simp] theorem recordCause_resetIn (e : Exception) (s : State) :
    (recordCause e s).resetIn = s.resetIn := by
  unfold recordCause; split <;> rfl

@[simp] theorem recordCause_answers (e : Exception) (s : State) :
    (recordCause e s).answers = s.answers := by
  unfold recordCause; split <;> rfl

@[simp] theorem recordCause_rep (e : Exception) (s : State) :
    (recordCause e s).rep = s.rep := by
  unfold recordCause; split <;> rfl

@[simp] theorem recordCause_hp (e : Exception) (s : State) :
    (recordCause e s).hp = s.hp := by
  unfold recordCause; split <;> rfl

@[simp] theorem recordCause_sw8 (e : Exception) (s : State) :
    (recordCause e s).sw8 = s.sw8 := by
  unfold recordCause; split <;> rfl

@[simp] theorem recordCause_sw9 (e : Exception) (s : State) :
    (recordCause e s).sw9 = s.sw9 := by
  unfold recordCause; split <;> rfl

@[simp] theorem recordCause_cmd (e : Exception) (s : State) :
    (recordCause e s).cmd = s.cmd := by
  unfold recordCause; split <;> rfl

@[simp] theorem recordCause_sym (e : Exception) (s : State) :
    (recordCause e s).sym = s.sym := by
  unfold recordCause; split <;> rfl

@[simp] theorem recordCause_pay (e : Exception) (s : State) :
    (recordCause e s).pay = s.pay := by
  unfold recordCause; split <;> rfl

@[simp] theorem recordCause_frame (e : Exception) (s : State) :
    (recordCause e s).frame = s.frame := by
  unfold recordCause; split <;> rfl

@[simp] theorem recordCause_phase (e : Exception) (s : State) :
    (recordCause e s).phase = s.phase := by
  unfold recordCause; split <;> rfl

@[simp] theorem recordCause_busy (e : Exception) (s : State) :
    (recordCause e s).busy = s.busy := by
  unfold recordCause; split <;> rfl

@[simp] theorem recordCause_done (e : Exception) (s : State) :
    (recordCause e s).done = s.done := by
  unfold recordCause; split <;> rfl

@[simp] theorem recordCause_errf (e : Exception) (s : State) :
    (recordCause e s).errf = s.errf := by
  unfold recordCause; split <;> rfl

@[simp] theorem raise_cfg (e : Exception) (s : State) : (raise e s).cfg = s.cfg := by
  simp only [raise, divert]; split <;> simp

@[simp] theorem raise_trace (e : Exception) (s : State) : (raise e s).trace = s.trace := by
  simp only [raise, divert]; split <;> simp

@[simp] theorem raise_outstanding (e : Exception) (s : State) : (raise e s).outstanding = s.outstanding := by
  simp only [raise, divert]; split <;> simp

@[simp] theorem raise_requests (e : Exception) (s : State) : (raise e s).requests = s.requests := by
  simp only [raise, divert]; split <;> simp

@[simp] theorem raise_resetIn (e : Exception) (s : State) : (raise e s).resetIn = s.resetIn := by
  simp only [raise, divert]; split <;> simp

@[simp] theorem raise_answers (e : Exception) (s : State) : (raise e s).answers = s.answers := by
  simp only [raise, divert]; split <;> simp

@[simp] theorem raise_rep (e : Exception) (s : State) : (raise e s).rep = s.rep := by
  simp only [raise, divert]; split <;> simp

@[simp] theorem raise_cause (e : Exception) (s : State) :
    (raise e s).cause = (recordCause e s).cause := by
  simp only [raise, divert]; split <;> simp

@[simp] theorem raise_einfo (e : Exception) (s : State) :
    (raise e s).einfo = (recordCause e s).einfo := by
  simp only [raise, divert]; split <;> simp

/-! ### Teardown answers -/

@[simp] theorem recordTeardown_ok (k : BitVec 4) (s : State) : recordTeardown k .ok s = s := rfl

@[simp] theorem recordTeardown_fail (k : BitVec 4) (s : State) :
    recordTeardown k .fail s = recordCause (.teardownError k) s := rfl

/-- Everything a teardown answer can do: `CAUSE` and `EINFO` for a first exception, nothing else. -/
theorem recordTeardown_eq (k : BitVec 4) (r : RadioAnswer) (s : State) :
    recordTeardown k r s = { s with
      cause := if r = .fail ∧ s.cause = 0#3 then 4#3 else s.cause
      einfo := if r = .fail ∧ s.cause = 0#3 then k else s.einfo } := by
  cases r
  · simp
  · rcases recordCause_cases (.teardownError k) s with ⟨h, e⟩ | ⟨h, e⟩ <;>
      simp [e, h, Exception.code, Exception.info]

@[simp] theorem recordTeardown_hp (k : BitVec 4) (r : RadioAnswer) (s : State) :
    (recordTeardown k r s).hp = s.hp := by
  cases r <;> simp

@[simp] theorem recordTeardown_sw8 (k : BitVec 4) (r : RadioAnswer) (s : State) :
    (recordTeardown k r s).sw8 = s.sw8 := by
  cases r <;> simp

@[simp] theorem recordTeardown_sw9 (k : BitVec 4) (r : RadioAnswer) (s : State) :
    (recordTeardown k r s).sw9 = s.sw9 := by
  cases r <;> simp

@[simp] theorem recordTeardown_cmd (k : BitVec 4) (r : RadioAnswer) (s : State) :
    (recordTeardown k r s).cmd = s.cmd := by
  cases r <;> simp

@[simp] theorem recordTeardown_sym (k : BitVec 4) (r : RadioAnswer) (s : State) :
    (recordTeardown k r s).sym = s.sym := by
  cases r <;> simp

@[simp] theorem recordTeardown_pay (k : BitVec 4) (r : RadioAnswer) (s : State) :
    (recordTeardown k r s).pay = s.pay := by
  cases r <;> simp

@[simp] theorem recordTeardown_frame (k : BitVec 4) (r : RadioAnswer) (s : State) :
    (recordTeardown k r s).frame = s.frame := by
  cases r <;> simp

@[simp] theorem recordTeardown_phase (k : BitVec 4) (r : RadioAnswer) (s : State) :
    (recordTeardown k r s).phase = s.phase := by
  cases r <;> simp

@[simp] theorem recordTeardown_rep (k : BitVec 4) (r : RadioAnswer) (s : State) :
    (recordTeardown k r s).rep = s.rep := by
  cases r <;> simp

@[simp] theorem recordTeardown_busy (k : BitVec 4) (r : RadioAnswer) (s : State) :
    (recordTeardown k r s).busy = s.busy := by
  cases r <;> simp

@[simp] theorem recordTeardown_done (k : BitVec 4) (r : RadioAnswer) (s : State) :
    (recordTeardown k r s).done = s.done := by
  cases r <;> simp

@[simp] theorem recordTeardown_errf (k : BitVec 4) (r : RadioAnswer) (s : State) :
    (recordTeardown k r s).errf = s.errf := by
  cases r <;> simp

@[simp] theorem recordTeardown_held (k : BitVec 4) (r : RadioAnswer) (s : State) :
    (recordTeardown k r s).held = s.held := by
  cases r <;> simp

@[simp] theorem recordTeardown_cfg (k : BitVec 4) (r : RadioAnswer) (s : State) :
    (recordTeardown k r s).cfg = s.cfg := by
  cases r <;> simp

@[simp] theorem recordTeardown_trace (k : BitVec 4) (r : RadioAnswer) (s : State) :
    (recordTeardown k r s).trace = s.trace := by
  cases r <;> simp

@[simp] theorem recordTeardown_outstanding (k : BitVec 4) (r : RadioAnswer) (s : State) :
    (recordTeardown k r s).outstanding = s.outstanding := by
  cases r <;> simp

@[simp] theorem recordTeardown_requests (k : BitVec 4) (r : RadioAnswer) (s : State) :
    (recordTeardown k r s).requests = s.requests := by
  cases r <;> simp

@[simp] theorem recordTeardown_resetIn (k : BitVec 4) (r : RadioAnswer) (s : State) :
    (recordTeardown k r s).resetIn = s.resetIn := by
  cases r <;> simp

@[simp] theorem recordTeardown_answers (k : BitVec 4) (r : RadioAnswer) (s : State) :
    (recordTeardown k r s).answers = s.answers := by
  cases r <;> simp

/-! ### The host's port (10_state.md R32) -/

@[simp] theorem hostRead_busy (s : State) : (hostRead s).busy = s.busy := rfl

@[simp] theorem hostRead_done (s : State) : (hostRead s).done = s.done := rfl

@[simp] theorem hostRead_errf (s : State) : (hostRead s).errf = s.errf := rfl

@[simp] theorem hostRead_cause (s : State) : (hostRead s).cause = s.cause := rfl

@[simp] theorem hostRead_einfo (s : State) : (hostRead s).einfo = s.einfo := rfl

@[simp] theorem hostWrite_hp (w : HostWrite) (s : State) : (hostWrite w s).hp = s.hp := by
  cases w <;> rfl

@[simp] theorem hostWrite_sw8 (w : HostWrite) (s : State) : (hostWrite w s).sw8 = s.sw8 := by
  cases w <;> rfl

@[simp] theorem hostWrite_sw9 (w : HostWrite) (s : State) : (hostWrite w s).sw9 = s.sw9 := by
  cases w <;> rfl

@[simp] theorem hostWrite_cmd (w : HostWrite) (s : State) : (hostWrite w s).cmd = s.cmd := by
  cases w <;> rfl

@[simp] theorem hostWrite_sym (w : HostWrite) (s : State) : (hostWrite w s).sym = s.sym := by
  cases w <;> rfl

@[simp] theorem hostWrite_pay (w : HostWrite) (s : State) : (hostWrite w s).pay = s.pay := by
  cases w <;> rfl

@[simp] theorem hostWrite_frame (w : HostWrite) (s : State) : (hostWrite w s).frame = s.frame := by
  cases w <;> rfl

@[simp] theorem hostWrite_phase (w : HostWrite) (s : State) : (hostWrite w s).phase = s.phase := by
  cases w <;> rfl

@[simp] theorem hostWrite_rep (w : HostWrite) (s : State) : (hostWrite w s).rep = s.rep := by
  cases w <;> rfl

@[simp] theorem hostWrite_busy (w : HostWrite) (s : State) : (hostWrite w s).busy = s.busy := by
  cases w <;> rfl

@[simp] theorem hostWrite_done (w : HostWrite) (s : State) : (hostWrite w s).done = s.done := by
  cases w <;> rfl

@[simp] theorem hostWrite_errf (w : HostWrite) (s : State) : (hostWrite w s).errf = s.errf := by
  cases w <;> rfl

@[simp] theorem hostWrite_cause (w : HostWrite) (s : State) : (hostWrite w s).cause = s.cause := by
  cases w <;> rfl

@[simp] theorem hostWrite_einfo (w : HostWrite) (s : State) : (hostWrite w s).einfo = s.einfo := by
  cases w <;> rfl

@[simp] theorem hostWrite_held (w : HostWrite) (s : State) : (hostWrite w s).held = s.held := by
  cases w <;> rfl

@[simp] theorem hostWrite_cfg (w : HostWrite) (s : State) : (hostWrite w s).cfg = s.cfg := by
  cases w <;> rfl

@[simp] theorem hostWrite_trace (w : HostWrite) (s : State) : (hostWrite w s).trace = s.trace := by
  cases w <;> rfl

@[simp] theorem hostWrite_outstanding (w : HostWrite) (s : State) : (hostWrite w s).outstanding = s.outstanding := by
  cases w <;> rfl

@[simp] theorem hostWrite_answers (w : HostWrite) (s : State) : (hostWrite w s).answers = s.answers := by
  cases w <;> rfl

@[simp] theorem hostWrite_request (words : List ReqWord) (s : State) :
    hostWrite (.request words) s = { s with requests := words } := rfl

@[simp] theorem hostWrite_reset (asserted : Bool) (s : State) :
    hostWrite (.reset asserted) s = { s with resetIn := asserted } := rfl

/-- The host reads the same of two states exactly where the five registers agree. -/
theorem hostRead_eq_iff {s t : State} : hostRead s = hostRead t ↔
    s.busy = t.busy ∧ s.done = t.done ∧ s.errf = t.errf ∧ s.cause = t.cause ∧ s.einfo = t.einfo := by
  simp only [hostRead, HostReport.mk.injEq]

end Sys2Proof.Machine
end

