-- ==== Sys2Proof/Laws/Driver.lean ====
section
/-!
SUPPORT. What each step of the driver can do, once per operation: later proofs cite these and do not
unfold the steps.
-/

namespace Sys2Proof.Machine

/-! ### Values and radio calls -/

@[simp] theorem withValue_ok {α : Type} (a : α) (k : α → Result) : withValue (.ok a) k = k a := rfl

@[simp] theorem withValue_error {α : Type} (f : Fault) (k : α → Result) :
    withValue (.error f) k = .fault f := rfl

/-- A step that reads a value and goes on to a next state did read one. -/
theorem withValue_next {α : Type} {e : Except Fault α} {k : α → Result} {t : State}
    (h : withValue e k = .next t) : ∃ a, e = .ok a ∧ k a = .next t := by
  cases e with
  | ok a => exact ⟨a, rfl, h⟩
  | error f => simp at h

@[simp] theorem valueOf_some {α : Type} (r : ValueReg) (a : α) : valueOf r (some a) = .ok a := rfl

@[simp] theorem valueOf_none {α : Type} (r : ValueReg) :
    valueOf r (none : Option α) = .error (.noValue r) := rfl

theorem valueOf_eq_ok {α : Type} {r : ValueReg} {v : Option α} {a : α} (h : valueOf r v = .ok a) :
    v = some a := by
  cases v <;> simp_all

theorem radioCall_nil {op : RadioOp} {s : State} (k : RadioAnswer → State → State)
    (h : s.answers = []) : radioCall op s k = .next (awaiting op s) := by
  simp [radioCall, h]

theorem radioCall_cons {op : RadioOp} {s : State} (k : RadioAnswer → State → State) {r : RadioAnswer}
    {rs : List RadioAnswer} (h : s.answers = r :: rs) :
    radioCall op s k = .next (k r (answered op r rs s)) := by
  simp [radioCall, h]

/-- A radio call waits, or is answered and goes on. -/
theorem radioCall_next {op : RadioOp} {s t : State} {k : RadioAnswer → State → State}
    (h : radioCall op s k = .next t) :
    (s.answers = [] ∧ t = awaiting op s) ∨
      ∃ r rs, s.answers = r :: rs ∧ t = k r (answered op r rs s) := by
  unfold radioCall at h
  split at h
  · next hn => exact .inl ⟨hn, by simpa using h.symm⟩
  · next r rs hn => exact .inr ⟨r, rs, hn, by simpa using h.symm⟩

/-- A radio call always gives a next state. -/
theorem radioCall_isNext (op : RadioOp) (s : State) (k : RadioAnswer → State → State) :
    ∃ t, radioCall op s k = .next t := by
  unfold radioCall; split <;> exact ⟨_, rfl⟩

/-! ### The sequencer -/

section phases
variable {s : State}

theorem advance_idle (h : s.phase = .idle) : advance s = .next s := by simp [advance, h]
theorem advance_decode (h : s.phase = .decode) : advance s = stepDecode s := by simp [advance, h]
theorem advance_build (h : s.phase = .build) : advance s = stepBuild s := by simp [advance, h]
theorem advance_cfgFreq (h : s.phase = .cfgFreq) : advance s = stepCfgFreq s := by simp [advance, h]
theorem advance_cfgPower (h : s.phase = .cfgPower) : advance s = stepCfgPower s := by
  simp [advance, h]
theorem advance_cfgMod (h : s.phase = .cfgMod) : advance s = stepCfgMod s := by simp [advance, h]
theorem advance_cfgRate (h : s.phase = .cfgRate) : advance s = stepCfgRate s := by simp [advance, h]
theorem advance_cfgLen (h : s.phase = .cfgLen) : advance s = stepCfgLen s := by simp [advance, h]
theorem advance_cfgSync (h : s.phase = .cfgSync) : advance s = stepCfgSync s := by simp [advance, h]
theorem advance_frame (h : s.phase = .frame) : advance s = stepFrame s := by simp [advance, h]
theorem advance_tx (h : s.phase = .tx) : advance s = stepTx s := by simp [advance, h]
theorem advance_tdIdle (h : s.phase = .tdIdle) : advance s = stepTdIdle s := by simp [advance, h]
theorem advance_tdCleanup (h : s.phase = .tdCleanup) : advance s = stepTdCleanup s := by
  simp [advance, h]

end phases

/-! ### Instructions and steps -/

/-- Every command is the SEND sequence with its own `CMD` (43_commands.md R115). -/
theorem exec_eq_send (i : Instr) (s : State) : exec i s = send i.hp i.sw8 i.sw9 i.cmd s := by
  cases i <;> rfl

theorem exec_idle (i : Instr) {s : State} (h : s.phase = .idle) :
    exec i s = .next (accept i.hp i.sw8 i.sw9 i.cmd s) := by
  simp [exec_eq_send, send, h]

theorem exec_busy (i : Instr) {s : State} (h : s.phase ≠ .idle) : exec i s = advance s := by
  simp [exec_eq_send, send, h]

theorem runWord_busy (w : ReqWord) {s : State} (h : s.phase ≠ .idle) : runWord w s = advance s := by
  unfold runWord
  split
  · exact exec_busy _ h
  · simp [execIllegal, send, h]

/-- An idle core accepts any word, a command or not. -/
theorem runWord_idle (w : ReqWord) {s : State} (h : s.phase = .idle) :
    runWord w s = .next (accept (reqHp w) (reqSw8 w) (reqSw9 w) (reqCmd w) s) := by
  unfold runWord
  cases hv : validCmd s.cfg.profile (reqCmd w)
  · rw [decode_invalid hv]; simp [execIllegal, send, h]
  · obtain ⟨i, hi, -, h1, h2, h3, h4⟩ := decode_valid hv
    simp [hi, exec_idle i h, h1, h2, h3, h4]

/-- While busy a step is the next step of the invocation in progress. -/
theorem step_busy {s : State} (hr : s.resetIn = false) (h : s.phase ≠ .idle) :
    step s = advance s := by
  unfold step
  simp only [hr, h, Bool.false_eq_true, if_false]
  split
  · exact runWord_busy _ h
  · rfl

theorem step_wait {s : State} (hr : s.resetIn = false) (h : s.phase = .idle)
    (hq : s.requests = []) : step s = .next s := by
  simp [step, hr, h, hq]

theorem step_fetch {s : State} {w : ReqWord} {ws : List ReqWord} (hr : s.resetIn = false)
    (h : s.phase = .idle) (hq : s.requests = w :: ws) :
    step s = runWord w { s with requests := ws } := by
  simp [step, hr, h, hq]

theorem step_reset {s : State} (hr : s.resetIn = true) : step s = stepReset s := by
  simp [step, hr]

/-! ### The steps, case by case -/

theorem stepDecode_valid {s : State} {c : Nibble} (hc : s.cmd = some c)
    (hv : validCmd s.cfg.profile c = true) : stepDecode s = .next { s with phase := .build } := by
  simp [stepDecode, readCmd, hc, hv]

theorem stepDecode_illegal {s : State} {c : Nibble} (hc : s.cmd = some c)
    (hv : validCmd s.cfg.profile c = false) :
    stepDecode s = .next (raise (.invalidCommand c) s) := by
  simp [stepDecode, readCmd, hc, hv]

theorem stepDecode_next {s t : State} (h : stepDecode s = .next t) :
    ∃ c, s.cmd = some c ∧
      ((validCmd s.cfg.profile c = true ∧ t = { s with phase := .build }) ∨
        (validCmd s.cfg.profile c = false ∧ t = raise (.invalidCommand c) s)) := by
  obtain ⟨c, hc, hk⟩ := withValue_next h
  refine ⟨c, valueOf_eq_ok hc, ?_⟩
  split at hk
  · next hv => exact .inl ⟨hv, by simpa using hk.symm⟩
  · next hv => exact .inr ⟨by simpa using hv, by simpa using hk.symm⟩

@[simp] theorem pePack_length (p : PadPolicy) (s : Vector Chip 39) : (pePack p s).length = 5 := rfl

@[simp] theorem peEncode_length (p : PadPolicy) (a b c : Nibble) :
    (peEncode p a b c).length = 5 := rfl

/-- The state BUILD leaves (42_transmission_driver.md R99). -/
def built (a b c : Nibble) (s : State) : State :=
  { s with
    sym := some (peBuild a b c)
    pay := Memory.writeBytes s.pay 0 (peEncode s.cfg.padPolicy a b c)
    held := true
    phase := .cfgFreq }

theorem stepBuild_eq {s : State} {a b c : Nibble} (ha : s.sw8 = some a) (hb : s.sw9 = some b)
    (hc : s.cmd = some c) : stepBuild s = .next (built a b c s) := by
  simp [stepBuild, readSw8, readSw9, readCmd, ha, hb, hc, memWrite, bufSize, setBufMem, bufMem, built,
    peEncode]

theorem stepBuild_next {s t : State} (h : stepBuild s = .next t) :
    ∃ a b c, s.sw8 = some a ∧ s.sw9 = some b ∧ s.cmd = some c ∧ t = built a b c s := by
  obtain ⟨a, ha, h1⟩ := withValue_next h
  obtain ⟨b, hb, h2⟩ := withValue_next h1
  obtain ⟨c, hc, _⟩ := withValue_next h2
  have ha := valueOf_eq_ok ha
  have hb := valueOf_eq_ok hb
  have hc := valueOf_eq_ok hc
  rw [stepBuild_eq ha hb hc] at h
  exact ⟨a, b, c, ha, hb, hc, by simpa using h.symm⟩

theorem configStep_ok {op : RadioOp} {s : State} {rs : List RadioAnswer} (k : BitVec 4) (p : Phase)
    (h : s.answers = .ok :: rs) :
    configStep op k p s = .next { answered op .ok rs s with phase := p } := radioCall_cons _ h

theorem configStep_fail {op : RadioOp} {s : State} {rs : List RadioAnswer} (k : BitVec 4) (p : Phase)
    (h : s.answers = .fail :: rs) :
    configStep op k p s = .next (raise (.radioConfigurationError k) (answered op .fail rs s)) :=
  radioCall_cons _ h

/-- A configuration step waits, goes on, or raises. -/
theorem configStep_next {op : RadioOp} {k : BitVec 4} {p : Phase} {s t : State}
    (h : configStep op k p s = .next t) :
    (s.answers = [] ∧ t = awaiting op s) ∨
      (∃ rs, s.answers = .ok :: rs ∧ t = { answered op .ok rs s with phase := p }) ∨
      (∃ rs, s.answers = .fail :: rs ∧
        t = raise (.radioConfigurationError k) (answered op .fail rs s)) := by
  rcases radioCall_next h with ⟨hn, ht⟩ | ⟨r, rs, hr, ht⟩
  · exact .inl ⟨hn, ht⟩
  · cases r
    · exact .inr (.inl ⟨rs, hr, ht⟩)
    · exact .inr (.inr ⟨rs, hr, ht⟩)

theorem stepCfgFreq_eq {s : State} {hp : Bool} (h : s.hp = some hp) :
    stepCfgFreq s =
      configStep (.setFrequency s.cfg.freqHz) 0#4 (if hp then .cfgPower else .cfgMod) s := by
  simp [stepCfgFreq, readHp, h]

theorem stepCfgFreq_next {s t : State} (h : stepCfgFreq s = .next t) :
    ∃ hp, s.hp = some hp ∧
      configStep (.setFrequency s.cfg.freqHz) 0#4 (if hp then .cfgPower else .cfgMod) s = .next t := by
  obtain ⟨hp, hh, hk⟩ := withValue_next h
  exact ⟨hp, valueOf_eq_ok hh, hk⟩

/-- The state FRAME leaves (42_transmission_driver.md R106). -/
def framed (payload : List Byte) (s : State) : State :=
  { s with
    frame := Memory.writeBytes (Memory.writeBytes s.frame 0 spacer) 5 payload
    phase := .tx }

theorem stepFrame_eq {s : State} {payload : List Byte}
    (h : Memory.readBytes s.pay 0 5 = some payload) : stepFrame s = .next (framed payload s) := by
  have hl := readBytes_length h
  have hr : memRead .pay 0 payloadLen s = .ok payload := memRead_ok (by decide) h
  simp [stepFrame, hr, memWrite, bufSize, setBufMem, bufMem, framed, spacer, hl]

theorem stepFrame_next {s t : State} (h : stepFrame s = .next t) :
    ∃ payload, Memory.readBytes s.pay 0 5 = some payload ∧ t = framed payload s := by
  obtain ⟨payload, hp, _⟩ := withValue_next h
  have hp := (memRead_eq_ok hp).2
  rw [stepFrame_eq hp] at h
  exact ⟨payload, hp, by simpa using h.symm⟩

theorem stepTx_eq {s : State} {bytes : List Byte} (hr : s.rep < 8#4)
    (h : Memory.readBytes s.frame 0 10 = some bytes) :
    stepTx s = radioCall (.transmitRaw bytes) s transmitted := by
  have hm : memRead .frame 0 frameLen s = .ok bytes := memRead_ok (by decide) h
  simp [stepTx, repeatCount, hr, hm]

theorem stepTx_next {s t : State} (h : stepTx s = .next t) :
    s.rep < 8#4 ∧ ∃ bytes, Memory.readBytes s.frame 0 10 = some bytes ∧
      radioCall (.transmitRaw bytes) s transmitted = .next t := by
  unfold stepTx at h
  split at h
  · next hr =>
    obtain ⟨bytes, hb, hk⟩ := withValue_next h
    exact ⟨hr, bytes, (memRead_eq_ok hb).2, hk⟩
  · simp at h

/-! ### What a step of the driver can do -/

/-- The row of a configuration phase: its call, its index and its successor
(10_state.md R21, 60_exceptions.md R141). -/
def configRow (s : State) : Option (RadioOp × BitVec 4 × Phase) :=
  match s.phase with
  | .cfgFreq =>
    s.hp.map fun hp => (.setFrequency s.cfg.freqHz, 0#4, if hp then .cfgPower else .cfgMod)
  | .cfgPower => some (.setMaxPower, 1#4, .cfgMod)
  | .cfgMod => some (.setModulation .amOnOffKeying, 2#4, .cfgRate)
  | .cfgRate => some (.setDataRate 2400, 3#4, .cfgLen)
  | .cfgLen => some (.setFixedFrameLength 10, 4#4, .cfgSync)
  | .cfgSync => some (.setSyncMode .none, 5#4, .frame)
  | _ => none

theorem configRow_phaseCall {s : State} {op : RadioOp} {k : BitVec 4} {p : Phase}
    (h : configRow s = some (op, k, p)) : phaseCall s = some op := by
  unfold configRow at h
  unfold phaseCall
  cases hp : s.phase <;> simp only [hp, Option.some.injEq, Prod.mk.injEq, reduceCtorEq] at h ⊢
  case cfgFreq =>
    obtain ⟨b, -, h⟩ := Option.map_eq_some_iff.mp h
    simp only [Prod.mk.injEq] at h
    exact h.1
  all_goals exact h.1

/-- A configuration phase and its successor: a teardown is owed in both, neither is a phase of the
teardown, and the step is before TX. -/
theorem configRow_phases {s : State} {op : RadioOp} {k : BitVec 4} {p : Phase}
    (h : configRow s = some (op, k, p)) :
    s.phase ≠ .idle ∧ s.phase ≠ .decode ∧ s.phase ≠ .build ∧ s.phase ≠ .frame ∧ s.phase ≠ .tx ∧
      s.phase ≠ .tdIdle ∧ s.phase ≠ .tdCleanup ∧ p ≠ .idle ∧ p ≠ .decode ∧ p ≠ .build ∧ p ≠ .tx ∧
      p ≠ .tdIdle ∧ p ≠ .tdCleanup ∧ (p = .cfgPower → s.hp = some true) := by
  unfold configRow at h
  cases hp : s.phase <;> simp only [hp, Option.some.injEq, Prod.mk.injEq, reduceCtorEq] at h
  case cfgFreq =>
    obtain ⟨b, hb, h⟩ := Option.map_eq_some_iff.mp h
    simp only [Prod.mk.injEq] at h
    obtain ⟨-, -, rfl⟩ := h
    cases b <;> simp [hb]
  all_goals obtain ⟨-, -, rfl⟩ := h
  all_goals simp

theorem advance_configRow {s : State} {op : RadioOp} {k : BitVec 4} {p : Phase}
    (h : configRow s = some (op, k, p)) : advance s = configStep op k p s := by
  unfold configRow at h
  cases hp : s.phase <;> simp only [hp] at h
  case cfgFreq =>
    obtain ⟨b, hb, h⟩ := Option.map_eq_some_iff.mp h
    simp only [Prod.mk.injEq] at h
    obtain ⟨rfl, rfl, rfl⟩ := h
    rw [advance_cfgFreq hp, stepCfgFreq_eq hb]
  all_goals simp only [Option.some.injEq, Prod.mk.injEq, reduceCtorEq] at h
  case cfgPower => obtain ⟨rfl, rfl, rfl⟩ := h; exact advance_cfgPower hp
  case cfgMod => obtain ⟨rfl, rfl, rfl⟩ := h; exact advance_cfgMod hp
  case cfgRate => obtain ⟨rfl, rfl, rfl⟩ := h; exact advance_cfgRate hp
  case cfgLen => obtain ⟨rfl, rfl, rfl⟩ := h; exact advance_cfgLen hp
  case cfgSync => obtain ⟨rfl, rfl, rfl⟩ := h; exact advance_cfgSync hp

/-- Every way a step of the driver can end in a next state, one constructor per rule of
42_transmission_driver.md; the six configuration steps share two. -/
inductive DriverStep (s : State) : State → Prop where
  /-- the call of the phase has no answer -/
  | waits {op : RadioOp} (hc : phaseCall s = some op) (ha : s.answers = []) :
      DriverStep s (awaiting op s)
  | passed {c : Nibble} (hp : s.phase = .decode) (hc : s.cmd = some c)
      (hv : validCmd s.cfg.profile c = true) : DriverStep s { s with phase := .build }
  | rejected {c : Nibble} (hp : s.phase = .decode) (hc : s.cmd = some c)
      (hv : validCmd s.cfg.profile c = false) : DriverStep s (raise (.invalidCommand c) s)
  | built {a b c : Nibble} (hp : s.phase = .build) (ha : s.sw8 = some a) (hb : s.sw9 = some b)
      (hc : s.cmd = some c) : DriverStep s (built a b c s)
  | configured {op : RadioOp} {k : BitVec 4} {p : Phase} {rs : List RadioAnswer}
      (hr : configRow s = some (op, k, p)) (ha : s.answers = .ok :: rs) :
      DriverStep s { answered op .ok rs s with phase := p }
  | configFailed {op : RadioOp} {k : BitVec 4} {p : Phase} {rs : List RadioAnswer}
      (hr : configRow s = some (op, k, p)) (ha : s.answers = .fail :: rs) :
      DriverStep s (raise (.radioConfigurationError k) (answered op .fail rs s))
  | framed {payload : List Byte} (hp : s.phase = .frame)
      (hm : Memory.readBytes s.pay 0 5 = some payload) : DriverStep s (framed payload s)
  | sent {bytes : List Byte} {r : RadioAnswer} {rs : List RadioAnswer} (hp : s.phase = .tx)
      (hr : s.rep < 8#4) (hm : Memory.readBytes s.frame 0 10 = some bytes) (ha : s.answers = r :: rs) :
      DriverStep s (transmitted r (answered (.transmitRaw bytes) r rs s))
  | idled {r : RadioAnswer} {rs : List RadioAnswer} (hp : s.phase = .tdIdle)
      (ha : s.answers = r :: rs) :
      DriverStep s { recordTeardown 0#4 r (answered .setIdle r rs s) with phase := .tdCleanup }
  | cleaned {r : RadioAnswer} {rs : List RadioAnswer} (hp : s.phase = .tdCleanup)
      (ha : s.answers = r :: rs) :
      DriverStep s (complete (recordTeardown 1#4 r (answered .cleanup r rs s)).cause
        (recordTeardown 1#4 r (answered .cleanup r rs s)))

theorem configStep_driverStep {s t : State} {op : RadioOp} {k : BitVec 4} {p : Phase}
    (hr : configRow s = some (op, k, p)) (h : configStep op k p s = .next t) : DriverStep s t := by
  rcases configStep_next h with ⟨hn, rfl⟩ | ⟨rs, ha, rfl⟩ | ⟨rs, ha, rfl⟩
  · exact .waits (configRow_phaseCall hr) hn
  · exact .configured hr ha
  · exact .configFailed hr ha

/-- The inversion of `advance` on a busy core: a next state comes from one of the rules. -/
theorem advance_cases {s t : State} (hb : s.phase ≠ .idle) (h : advance s = .next t) :
    DriverStep s t := by
  cases hp : s.phase with
  | idle => exact absurd hp hb
  | decode =>
    rw [advance_decode hp] at h
    obtain ⟨c, hc, ⟨hv, rfl⟩ | ⟨hv, rfl⟩⟩ := stepDecode_next h
    · exact .passed hp hc hv
    · exact .rejected hp hc hv
  | build =>
    rw [advance_build hp] at h
    obtain ⟨a, b, c, ha, hb, hc, rfl⟩ := stepBuild_next h
    exact .built hp ha hb hc
  | cfgFreq =>
    rw [advance_cfgFreq hp] at h
    obtain ⟨b, hb, h⟩ := stepCfgFreq_next h
    exact configStep_driverStep (by simp [configRow, hp, hb]) h
  | cfgPower => rw [advance_cfgPower hp] at h; exact configStep_driverStep (by simp [configRow, hp]) h
  | cfgMod => rw [advance_cfgMod hp] at h; exact configStep_driverStep (by simp [configRow, hp]) h
  | cfgRate =>
    rw [advance_cfgRate hp] at h; exact configStep_driverStep (by simp [configRow, hp, baud]) h
  | cfgLen =>
    rw [advance_cfgLen hp] at h; exact configStep_driverStep (by simp [configRow, hp, frameLen]) h
  | cfgSync => rw [advance_cfgSync hp] at h; exact configStep_driverStep (by simp [configRow, hp]) h
  | frame =>
    rw [advance_frame hp] at h
    obtain ⟨payload, hm, rfl⟩ := stepFrame_next h
    exact .framed hp hm
  | tx =>
    rw [advance_tx hp] at h
    obtain ⟨hr, bytes, hm, h⟩ := stepTx_next h
    rcases radioCall_next h with ⟨hn, rfl⟩ | ⟨r, rs, ha, rfl⟩
    · exact .waits (by simp [phaseCall, hp, hm]) hn
    · exact .sent hp hr hm ha
  | tdIdle =>
    rw [advance_tdIdle hp] at h
    rcases radioCall_next h with ⟨hn, rfl⟩ | ⟨r, rs, ha, rfl⟩
    · exact .waits (by simp [phaseCall, hp]) hn
    · exact .idled hp ha
  | tdCleanup =>
    rw [advance_tdCleanup hp] at h
    rcases radioCall_next h with ⟨hn, rfl⟩ | ⟨r, rs, ha, rfl⟩
    · exact .waits (by simp [phaseCall, hp]) hn
    · exact .cleaned hp ha

theorem configStep_isNext (op : RadioOp) (k : BitVec 4) (p : Phase) (s : State) :
    ∃ t, configStep op k p s = .next t := radioCall_isNext _ _ _

/-- Why a step of the driver can fault: a register it reads holds no value, or TX's precondition fails. -/
inductive DriverFault (s : State) : Fault → Prop where
  | cmd (hp : s.phase = .decode ∨ s.phase = .build) (h : s.cmd = none) : DriverFault s (.noValue .cmd)
  | sw8 (hp : s.phase = .build) (h : s.sw8 = none) : DriverFault s (.noValue .sw8)
  | sw9 (hp : s.phase = .build) (h : s.sw9 = none) : DriverFault s (.noValue .sw9)
  | hp (hp : s.phase = .cfgFreq) (h : s.hp = none) : DriverFault s (.noValue .hp)
  | pay (hp : s.phase = .frame) (h : Memory.readBytes s.pay 0 5 = none) :
      DriverFault s (.noValue (.buf .pay))
  | frame (hp : s.phase = .tx) (h : Memory.readBytes s.frame 0 10 = none) :
      DriverFault s (.noValue (.buf .frame))
  | rep (hp : s.phase = .tx) (h : ¬ s.rep < 8#4) : DriverFault s .noTxRule

/-- A step of the driver ends in a next state or in a fault of `DriverFault`; it is never refused. -/
theorem advance_outcome (s : State) :
    (∃ t, advance s = .next t) ∨ (∃ f, advance s = .fault f ∧ DriverFault s f) := by
  cases hp : s.phase with
  | idle => exact .inl ⟨s, advance_idle hp⟩
  | decode =>
    rw [advance_decode hp]
    cases hc : s.cmd with
    | none => exact .inr ⟨_, by simp [stepDecode, readCmd, hc], .cmd (.inl hp) hc⟩
    | some c =>
      cases hv : validCmd s.cfg.profile c
      · exact .inl ⟨_, stepDecode_illegal hc hv⟩
      · exact .inl ⟨_, stepDecode_valid hc hv⟩
  | build =>
    rw [advance_build hp]
    cases ha : s.sw8 with
    | none => exact .inr ⟨_, by simp [stepBuild, readSw8, ha], .sw8 hp ha⟩
    | some a =>
      cases hb : s.sw9 with
      | none => exact .inr ⟨_, by simp [stepBuild, readSw8, readSw9, ha, hb], .sw9 hp hb⟩
      | some b =>
        cases hc : s.cmd with
        | none =>
          exact .inr ⟨_, by simp [stepBuild, readSw8, readSw9, readCmd, ha, hb, hc],
            .cmd (.inr hp) hc⟩
        | some c => exact .inl ⟨_, stepBuild_eq ha hb hc⟩
  | cfgFreq =>
    rw [advance_cfgFreq hp]
    cases hh : s.hp with
    | none => exact .inr ⟨_, by simp [stepCfgFreq, readHp, hh], .hp hp hh⟩
    | some b => rw [stepCfgFreq_eq hh]; exact .inl (configStep_isNext _ _ _ _)
  | cfgPower => rw [advance_cfgPower hp]; exact .inl (configStep_isNext _ _ _ _)
  | cfgMod => rw [advance_cfgMod hp]; exact .inl (configStep_isNext _ _ _ _)
  | cfgRate => rw [advance_cfgRate hp]; exact .inl (configStep_isNext _ _ _ _)
  | cfgLen => rw [advance_cfgLen hp]; exact .inl (configStep_isNext _ _ _ _)
  | cfgSync => rw [advance_cfgSync hp]; exact .inl (configStep_isNext _ _ _ _)
  | frame =>
    rw [advance_frame hp]
    cases hm : Memory.readBytes s.pay 0 5 with
    | none =>
      exact .inr ⟨_, by simp [stepFrame, memRead, hm, payloadLen, bufSize, bufMem], .pay hp hm⟩
    | some payload => exact .inl ⟨_, stepFrame_eq hm⟩
  | tx =>
    rw [advance_tx hp]
    by_cases hr : s.rep < 8#4
    · cases hm : Memory.readBytes s.frame 0 10 with
      | none =>
        exact .inr ⟨_, by simp [stepTx, repeatCount, hr, memRead, hm, frameLen, bufSize, bufMem],
          .frame hp hm⟩
      | some bytes => rw [stepTx_eq hr hm]; exact .inl (radioCall_isNext _ _ _)
    · exact .inr ⟨_, by simp [stepTx, repeatCount, hr], .rep hp hr⟩
  | tdIdle => rw [advance_tdIdle hp]; exact .inl (radioCall_isNext _ _ _)
  | tdCleanup => rw [advance_tdCleanup hp]; exact .inl (radioCall_isNext _ _ _)

/-- The inversion of an execution: accepting, or a step of the driver. -/
theorem exec_cases {i : Instr} {s t : State} (h : exec i s = .next t) :
    (s.phase = .idle ∧ t = accept i.hp i.sw8 i.sw9 i.cmd s) ∨ (s.phase ≠ .idle ∧ DriverStep s t) := by
  by_cases hp : s.phase = .idle
  · rw [exec_idle i hp] at h; exact .inl ⟨hp, by simpa using h.symm⟩
  · rw [exec_busy i hp] at h; exact .inr ⟨hp, advance_cases hp h⟩

/-- A step that faults is a step of the driver, with one of its faults. -/
theorem step_fault {s : State} {f : Fault} (h : step s = .fault f) :
    s.resetIn = false ∧ s.phase ≠ .idle ∧ DriverFault s f := by
  cases hr : s.resetIn
  · by_cases hp : s.phase = .idle
    · cases hq : s.requests with
      | nil => rw [step_wait hr hp hq] at h; cases h
      | cons w ws => rw [step_fetch hr hp hq, runWord_idle _ (by exact hp)] at h; cases h
    · rw [step_busy hr hp] at h
      rcases advance_outcome s with ⟨t, ht⟩ | ⟨g, hg, hd⟩
      · rw [ht] at h; cases h
      · rw [hg] at h; cases h; exact ⟨rfl, hp, hd⟩
  · rw [step_reset hr] at h; unfold stepReset at h; split at h <;> cases h

/-- The inversion of a step: reset, waiting for a request, accepting one, or a step of the driver. -/
theorem step_cases {s t : State} (h : step s = .next t) :
    (s.resetIn = true ∧ s.phase = .idle ∧ t = applyReset s) ∨
      (s.resetIn = false ∧ s.phase = .idle ∧ s.requests = [] ∧ t = s) ∨
      (∃ w ws, s.resetIn = false ∧ s.phase = .idle ∧ s.requests = w :: ws ∧
        runWord w { s with requests := ws } = .next t) ∨
      (s.resetIn = false ∧ s.phase ≠ .idle ∧ DriverStep s t) := by
  by_cases hr : s.resetIn = true
  · rw [step_reset hr] at h
    unfold stepReset at h
    split at h
    · next hp => exact .inl ⟨hr, hp, by simpa using h.symm⟩
    · simp at h
  · replace hr : s.resetIn = false := by simpa using hr
    by_cases hp : s.phase = .idle
    · match hq : s.requests with
      | [] =>
        rw [step_wait hr hp hq] at h
        exact .inr (.inl ⟨hr, hp, rfl, by simpa using h.symm⟩)
      | w :: ws =>
        rw [step_fetch hr hp hq] at h
        exact .inr (.inr (.inl ⟨w, ws, hr, hp, rfl, h⟩))
    · rw [step_busy hr hp] at h
      exact .inr (.inr (.inr ⟨hr, hp, advance_cases hp h⟩))

/-- A run goes on from its first step. -/
theorem run_succ {s t : State} (n : Nat) (h : step s = .next t) :
    Host.Core.run Sys2Proof.core (n + 1) s = Host.Core.run Sys2Proof.core n t := by
  have h' : Sys2Proof.core.step s = .next t := h
  simp only [Host.Core.run, h']

end Sys2Proof.Machine
end

