-- ==== Sys2Proof/Laws/PerInstr.lean ====
section
/-!
SUPPORT. One fact per instruction as syntax: its request word carries its operands and its code.
-/

namespace Sys2Proof.Laws.RequestFields

/-- The fields of the command's request word are its operands and its code (30_encoding.md R64, R65). -/
def Statement (i : Instr) : Prop :=
  reqHp (encode i) = i.hp ∧ reqSw8 (encode i) = i.sw8 ∧ reqSw9 (encode i) = i.sw9 ∧
    reqCmd (encode i) = i.cmd

theorem off (hp : Bool) (a b : Nibble) : Statement (.off hp a b) := by simp [Statement, encode]

theorem slow (hp : Bool) (a b : Nibble) : Statement (.slow hp a b) := by simp [Statement, encode]

theorem medium (hp : Bool) (a b : Nibble) : Statement (.medium hp a b) := by
  simp [Statement, encode]

theorem fast (hp : Bool) (a b : Nibble) : Statement (.fast hp a b) := by simp [Statement, encode]

theorem light (hp : Bool) (a b : Nibble) : Statement (.light hp a b) := by simp [Statement, encode]

theorem light1 (hp : Bool) (a b : Nibble) : Statement (.light1 hp a b) := by
  simp [Statement, encode]

theorem light2 (hp : Bool) (a b : Nibble) : Statement (.light2 hp a b) := by
  simp [Statement, encode]

end Sys2Proof.Laws.RequestFields
end

