-- ==== Sys2Proof/Tests/Slice0.lean ====
section
/-!
SUPPORT. Tests against values printed in spec/ (95_test_vectors.md and the rules), each of one step or one
function, and a witness for the hypotheses of every statement that has some.
-/

namespace Sys2Proof.Tests

open Sys2Proof.Machine

/-! ### States for the tests -/

/-- The configuration of the programs of 95_test_vectors.md section 3. -/
def cfgOf (p : Profile) : Cfg := { padPolicy := .zeroPad, profile := p, freqHz := 304300000 }

/-- An idle core after reset, with requests presented and answers to come. -/
def idleCore (p : Profile) (requests : List ReqWord) (answers : List RadioAnswer) : State :=
  { State.reset with cfg := cfgOf p, requests := requests, answers := answers }

/-- Cells of a list of bytes from address `a` on. -/
def cells : Nat → List Byte → Memory
  | _, [] => []
  | a, b :: rest => (a, b) :: cells (a + 1) rest

/-- The payload of OFF with the default switches (95_test_vectors.md E5). -/
def offPayload : List Byte := [0x49, 0x24, 0x96, 0xD9, 0x64]

/-- The frame of OFF with the default switches (95_test_vectors.md E5). -/
def offFrame : List Byte := [0x00, 0x00, 0x00, 0x00, 0x00, 0x49, 0x24, 0x96, 0xD9, 0x64]

/-- A core in the middle of OFF with the default switches (95_test_vectors.md P1), a teardown owed. -/
def inPhase (ph : Phase) (answers : List RadioAnswer) : State :=
  { idleCore .single [] answers with
    phase := ph, busy := true, held := true
    hp := some false, sw8 := some 0b0000#4, sw9 := some 0b0011#4, cmd := some 0b1010#4
    sym := some (peBuild 0b0000#4 0b0011#4 0b1010#4)
    pay := cells 0 offPayload, frame := cells 0 offFrame }

/-- A core that has accepted a command and not yet built its packet. -/
def latched (p : Profile) (ph : Phase) (c : Nibble) : State :=
  { idleCore p [] [] with
    phase := ph, busy := true
    hp := some false, sw8 := some 0b0000#4, sw9 := some 0b0011#4, cmd := some c }

/-- The default OFF, which the tests execute where the instruction does not matter. -/
def anOff : Instr := .off false 0b0000#4 0b0011#4

/-- The outcome is a next state with the property. -/
def nextHas (r : Result) (q : State → Bool) : Bool :=
  match r with
  | .next t => q t
  | _ => false

/-! ### Well-formedness -/

/-- 20_memory.md R38: LIGHT does not exist under `DUAL`. -/
theorem test_wf_refuses_light_under_dual :
    Instr.wf .dual (.light false 0#4 0#4) = false ∧ Instr.wf .single (.light false 0#4 0#4) = true := by
  decide

/-- 20_memory.md R38: LIGHT1 does not exist under `SINGLE`. -/
theorem test_wf_refuses_light1_under_single :
    Instr.wf .single (.light1 false 0#4 0#4) = false ∧ Instr.wf .dual (.light1 false 0#4 0#4) = true := by
  decide

/-- 20_memory.md R38: LIGHT2 does not exist under `SINGLE`. -/
theorem test_wf_refuses_light2_under_single :
    Instr.wf .single (.light2 false 0#4 0#4) = false ∧ Instr.wf .dual (.light2 false 0#4 0#4) = true := by
  decide

/-! ### Decoding: words written out bit by bit from 30_encoding.md R64, R67 -/

theorem test_decode_off :
    decode .single 0b1_0000_0011_1010#13 = .ok (.off true 0b0000#4 0b0011#4) := by decide

theorem test_decode_slow :
    decode .dual 0b0_1010_0101_0010#13 = .ok (.slow false 0b1010#4 0b0101#4) := by decide

theorem test_decode_medium :
    decode .single 0b0_0001_1000_0100#13 = .ok (.medium false 0b0001#4 0b1000#4) := by decide

theorem test_decode_fast :
    decode .dual 0b1_1111_0000_1000#13 = .ok (.fast true 0b1111#4 0b0000#4) := by decide

theorem test_decode_light :
    decode .single 0b0_0000_0011_0101#13 = .ok (.light false 0b0000#4 0b0011#4) := by decide

theorem test_decode_light1 :
    decode .dual 0b0_0000_0011_0101#13 = .ok (.light1 false 0b0000#4 0b0011#4) := by decide

theorem test_decode_light2 :
    decode .dual 0b1_0110_1001_1001#13 = .ok (.light2 true 0b0110#4 0b1001#4) := by decide

/-- 95_test_vectors.md section 2.4: the codes that are illegal under each profile. -/
theorem test_decode_illegal_codes :
    ([0b0000#4, 0b0001#4, 0b0011#4, 0b0110#4, 0b0111#4, 0b1011#4, 0b1100#4, 0b1101#4, 0b1110#4,
      0b1111#4].all fun c => !validCmd .single c && !validCmd .dual c) = true ∧
    validCmd .single 0b1001#4 = false ∧
    decode .single 0b1_1111_1111_1001#13 = .error (.invalidCommand 0b1001#4) := by decide

/-- The table's words as numbers; a number of more than 13 bits is no request. -/
theorem test_decodeTableWord :
    decodeTableWord 16 0x103A = some (.off true 0b0000#4 0b0011#4) ∧
    decodeTableWord 16 0x0035 = some (.light false 0b0000#4 0b0011#4) ∧
    decodeTableWord 16 0x0039 = some (.light2 false 0b0000#4 0b0011#4) ∧
    decodeTableWord 16 0x003F = none ∧ decodeTableWord 16 0x203A = none := by decide

/-- A word placed after reset is what the next step runs, whatever the configuration is. -/
theorem test_withFetchWord :
    nextHas (step (State.reset.withFetchWord 16 0x103A))
      (fun t => t.phase == .decode && t.hp == some true && t.cmd == some 0b1010#4) = true ∧
    nextHas (step (State.reset.withFetchWord 16 0x0039))
      (fun t => t.phase == .decode && t.cmd == some 0b1001#4 && t.cfg.profile == .dual) = true := by
  decide

/-! ### The encoders (95_test_vectors.md sections 2.1, 2.2) -/

theorem test_seEncNib_vectors :
    uint (seEncNib 0b0000#4) = 0x492 ∧ uint (seEncNib 0b0111#4) = 0x5B6 ∧
    uint (seEncNib 0b1001#4) = 0xC96 ∧ uint (seEncNib 0b1111#4) = 0xDB6 := by decide

theorem test_peEncode_vectors :
    peEncode .zeroPad 0b1010#4 0b0101#4 0b0010#4 = [0x59, 0x64, 0xB2, 0xC9, 0x64] ∧
    peEncode .raw7 0b1010#4 0b0101#4 0b0010#4 = [0x59, 0x64, 0xB2, 0xC9, 0x32] ∧
    peEncode .zeroPad 0b0001#4 0b1000#4 0b1001#4 = [0x49, 0x2D, 0x92, 0x59, 0x2C] ∧
    peEncode .raw7 0b1111#4 0b1111#4 0b1111#4 = [0x5B, 0x6D, 0xB6, 0xDB, 0x36] := by decide

/-- 95_test_vectors.md section 2.2: one bit at a time, the SW9 bits at the byte edges. -/
theorem test_peEncode_byte_edges :
    peEncode .zeroPad 0b0000#4 0b1000#4 0b0000#4 = [0x49, 0x25, 0x92, 0x49, 0x24] ∧
    peEncode .zeroPad 0b0000#4 0b0001#4 0b0000#4 = [0x49, 0x24, 0x92, 0xC9, 0x24] ∧
    peEncode .raw7 0b0000#4 0b0000#4 0b0010#4 = [0x49, 0x24, 0x92, 0x49, 0x32] := by decide

/-! ### One step of each command: the request is taken, and BUILD makes its payload
(95_test_vectors.md section 2.9) -/

/-- ACCEPT of the word leaves the command in the latches, in DECODE. -/
def takes (p : Profile) (w : ReqWord) (c : Nibble) : Bool :=
  nextHas (step (idleCore p [w] [])) fun t =>
    t.phase == .decode && t.busy && t.cmd == some c && t.sw8 == some 0b0000#4 &&
      t.sw9 == some 0b0011#4 && t.hp == some false && t.requests.isEmpty

/-- BUILD of the command leaves the payload in `PAY`, in CFG_FREQ. -/
def builds (p : Profile) (i : Instr) (bytes : List Byte) : Bool :=
  nextHas (exec i (latched p .build i.cmd)) fun t =>
    t.phase == .cfgFreq && t.held && Memory.readBytes t.pay 0 5 == some bytes

theorem test_off_accept : takes .single 0x003A#13 0b1010#4 = true := by decide

theorem test_off_build : builds .dual anOff [0x49, 0x24, 0x96, 0xD9, 0x64] = true := by decide

theorem test_slow_accept : takes .dual 0x0032#13 0b0010#4 = true := by decide

theorem test_slow_build :
    builds .single (.slow false 0b0000#4 0b0011#4) [0x49, 0x24, 0x96, 0xC9, 0x64] = true := by decide

theorem test_medium_accept : takes .single 0x0034#13 0b0100#4 = true := by decide

theorem test_medium_build :
    builds .dual (.medium false 0b0000#4 0b0011#4) [0x49, 0x24, 0x96, 0xCB, 0x24] = true := by decide

theorem test_fast_accept : takes .dual 0x0038#13 0b1000#4 = true := by decide

theorem test_fast_build :
    builds .single (.fast false 0b0000#4 0b0011#4) [0x49, 0x24, 0x96, 0xD9, 0x24] = true := by decide

theorem test_light_accept : takes .single 0x0035#13 0b0101#4 = true := by decide

theorem test_light_build :
    builds .single (.light false 0b0000#4 0b0011#4) [0x49, 0x24, 0x96, 0xCB, 0x2C] = true := by decide

theorem test_light1_accept : takes .dual 0x0035#13 0b0101#4 = true := by decide

theorem test_light1_build :
    builds .dual (.light1 false 0b0000#4 0b0011#4) [0x49, 0x24, 0x96, 0xCB, 0x2C] = true := by decide

theorem test_light2_accept : takes .dual 0x0039#13 0b1001#4 = true := by decide

/-- 43_commands.md R122: under `SINGLE` the code of LIGHT2 is rejected by DECODE. -/
theorem test_light2_under_single :
    nextHas (exec (.light2 false 0b0000#4 0b0011#4) (latched .single .decode 0b1001#4)) (fun t =>
      t.phase == .idle && t.done && t.errf && t.cause == 1#3 && t.einfo == 9#4 && t.trace.isEmpty) =
      true := by decide

/-! ### Single steps of the sequence (95_test_vectors.md P1, sections 2.6 to 2.8) -/

/-- Without `HP` CFG_FREQ skips CFG_POWER. -/
theorem test_cfgFreq_skips_power :
    nextHas (step (inPhase .cfgFreq [.ok])) (fun t =>
      t.phase == .cfgMod && t.trace == [{ op := .setFrequency 304300000, answer := .ok }]) = true := by
  decide

/-- Section 2.6, second row: `setMaxPower` fails. -/
theorem test_cfgPower_fails :
    nextHas (step { inPhase .cfgPower [.fail] with hp := some true }) (fun t =>
      t.phase == .tdIdle && t.cause == 2#3 && t.einfo == 1#4 && t.held &&
      t.trace == [{ op := .setMaxPower, answer := .fail }]) = true := by decide

/-- Section 2.3, first row. -/
theorem test_frame_bytes :
    nextHas (step { inPhase .frame [] with frame := [] }) (fun t =>
      t.phase == .tx && Memory.readBytes t.frame 0 10 == some offFrame) = true := by decide

/-- Section 2.7: the third transmission fails. -/
theorem test_tx_third_fails :
    nextHas (step { inPhase .tx [.fail] with rep := 2#4 }) (fun t =>
      t.phase == .tdIdle && t.cause == 3#3 && t.einfo == 3#4 && t.rep == 2#4) = true := by decide

/-- P1: the eighth transmission ends the batch. -/
theorem test_tx_eighth :
    nextHas (step { inPhase .tx [.ok] with rep := 7#4 }) (fun t =>
      t.phase == .tdIdle && t.cause == 0#3 && t.rep == 8#4 &&
      t.trace == [{ op := .transmitRaw offFrame, answer := .ok }]) = true := by decide

/-- Section 2.7, fifth row: only `cleanup` fails. -/
theorem test_cleanup_fails :
    nextHas (step { inPhase .tdCleanup [.fail] with rep := 8#4 }) (fun t =>
      t.phase == .idle && t.done && t.errf && !t.busy && t.cause == 4#3 && t.einfo == 1#4 &&
      t.rep == 8#4 && t.pay.isEmpty && t.frame.isEmpty && t.cmd == none) = true := by decide

/-- Section 2.7, seventh row: the first exception wins. -/
theorem test_first_exception_wins :
    nextHas (step { inPhase .tdIdle [.fail] with rep := 2#4, cause := 3#3, einfo := 3#4 }) (fun t =>
      t.phase == .tdCleanup && t.cause == 3#3 && t.einfo == 3#4) = true := by decide

/-- Section 2.8: a transmission that is never answered. -/
theorem test_tx_not_answered :
    nextHas (step { inPhase .tx [] with rep := 4#4 }) (fun t =>
      t.phase == .tx && t.rep == 4#4 && t.busy && !t.done && t.trace.isEmpty &&
      t.outstanding == some (.transmitRaw offFrame)) = true := by decide

/-- Section 2.8: reset in `IDLE`, after an invocation that failed. -/
theorem test_reset_in_idle :
    nextHas (step { idleCore .dual [] [] with
        resetIn := true, done := true, errf := true, cause := 3#3, einfo := 8#4, rep := 7#4 }) (fun t =>
      t.phase == .idle && !t.done && !t.errf && t.cause == 0#3 && t.einfo == 0#4 && t.rep == 0#4 &&
      t.cfg == cfgOf .dual && t.trace.isEmpty && !t.resetIn) = true := by decide

/-- Section 2.8: a request presented during TX is not taken. -/
theorem test_request_while_busy :
    nextHas (step { inPhase .tx [.ok] with rep := 4#4, requests := [0x0038#13] }) (fun t =>
      t.phase == .tx && t.rep == 5#4 && t.cmd == some 0b1010#4 && t.requests == [0x0038#13]) = true := by
  decide

/-- 95_test_vectors.md section 2.7, second row: what the host reads while the teardown runs, the failed
third transmission on record; `REP` and `HELD` are not among it (10_state.md R32). -/
theorem test_hostRead_after_failure :
    nextHas (step { inPhase .tx [.fail] with rep := 2#4 }) (fun t =>
      hostRead t == { busy := true, done := false, errf := false, cause := 3#3, einfo := 3#4 }) = true := by
  decide

/-! ### Witnesses: states and operands that meet the hypotheses of a statement -/

theorem witness_DecodeOfEncodeIsTheCommand :
    Instr.wf .single (.light true 0xF#4 0xF#4) = true ∧ Instr.wf .dual (.light2 false 0#4 0#4) = true ∧
    Instr.wf .dual (.light1 true 0#4 0xF#4) = true ∧ Instr.wf .single anOff = true := by decide

theorem witness_DecodeIsTotalAndExact :
    validCmd .single (reqCmd 0x0035#13) = true ∧ validCmd .dual (reqCmd 0x1FF9#13) = true ∧
    validCmd .single (reqCmd 0x1FF9#13) = false ∧ (latched .dual .decode 0b1001#4).phase = .decode ∧
    (latched .dual .decode 0b1001#4).cfg.profile = .dual ∧
    (latched .dual .decode 0b1001#4).cmd = some (reqCmd 0x1FF9#13) := by decide

theorem witness_SymbolEncodingIsInvertible :
    seEncBit true = seEncBit true ∧ seEncNib 0b1001#4 = seEncNib 0b1001#4 := by decide

theorem witness_PayloadDeterminesTheRequestFields :
    peEncode .raw7 0b1010#4 0b0101#4 0b1001#4 = peEncode .raw7 0b1010#4 0b0101#4 0b1001#4 := rfl

theorem witness_CommandFacts :
    (idleCore .single [] []).phase = .idle ∧ (latched .single .decode 0b1010#4).phase = .decode ∧
    (latched .single .decode 0b1010#4).cmd = some 0b1010#4 ∧
    (latched .single .decode 0b1010#4).cfg.profile ∈ [Profile.single, Profile.dual] := by decide

theorem witness_LightCommands :
    (latched .single .decode 0b0101#4).phase = .decode ∧
    (latched .single .decode 0b0101#4).cmd = some 0b0101#4 ∧
    (latched .single .decode 0b1001#4).phase = .decode ∧
    (latched .single .decode 0b1001#4).cmd = some 0b1001#4 ∧
    (latched .single .decode 0b1001#4).cfg.profile = .single ∧
    (latched .single .decode 0b1001#4).held = false ∧
    (latched .single .decode 0b1001#4).cause = 0#3 := by decide

theorem witness_AcceptLoadsTheRequest :
    (idleCore .dual [] []).phase = .idle ∧ (inPhase .tx []).phase ≠ .idle := by decide

theorem witness_DecodePassesOrRejects :
    (latched .dual .decode 0b1001#4).phase = .decode ∧
    (latched .dual .decode 0b1001#4).cmd = some 0b1001#4 ∧
    validCmd (latched .dual .decode 0b1001#4).cfg.profile 0b1001#4 = true ∧
    (latched .single .decode 0b1001#4).phase = .decode ∧
    (latched .single .decode 0b1001#4).cmd = some 0b1001#4 ∧
    validCmd (latched .single .decode 0b1001#4).cfg.profile 0b1001#4 = false ∧
    (latched .single .decode 0b1001#4).held = false ∧
    (latched .single .decode 0b1001#4).cause = 0#3 := by decide

theorem witness_BuildStoresPacketAndPayload :
    (latched .single .build 0b1010#4).phase = .build ∧
    (latched .single .build 0b1010#4).sw8 = some 0b0000#4 ∧
    (latched .single .build 0b1010#4).sw9 = some 0b0011#4 ∧
    (latched .single .build 0b1010#4).cmd = some 0b1010#4 := by decide

/-- All four cases: without and with `HP`, answered ok and fail. -/
theorem witness_CfgFreqTunesTheRadio :
    ([false, true].all fun hp => [RadioAnswer.ok, .fail].all fun r =>
      let s := { inPhase .cfgFreq [r] with hp := some hp }
      s.phase == .cfgFreq && s.hp == some hp && s.answers == [r]) = true := by decide

/-- The first and the last row, answered ok and fail. -/
theorem witness_ConfigurationStepsMakeTheirCalls :
    ((inPhase .cfgPower [.ok]).phase, RadioOp.setMaxPower, (1#4 : BitVec 4), Phase.cfgMod) ∈
      [(Phase.cfgPower, RadioOp.setMaxPower, (1#4 : BitVec 4), Phase.cfgMod),
       (.cfgMod, .setModulation .amOnOffKeying, 2#4, .cfgRate),
       (.cfgRate, .setDataRate 2400, 3#4, .cfgLen),
       (.cfgLen, .setFixedFrameLength 10, 4#4, .cfgSync),
       (.cfgSync, .setSyncMode .none, 5#4, .frame)] ∧
    (inPhase .cfgPower [.ok]).answers = [.ok] ∧
    ((inPhase .cfgSync [.fail]).phase, RadioOp.setSyncMode .none, (5#4 : BitVec 4), Phase.frame) ∈
      [(Phase.cfgPower, RadioOp.setMaxPower, (1#4 : BitVec 4), Phase.cfgMod),
       (.cfgMod, .setModulation .amOnOffKeying, 2#4, .cfgRate),
       (.cfgRate, .setDataRate 2400, 3#4, .cfgLen),
       (.cfgLen, .setFixedFrameLength 10, 4#4, .cfgSync),
       (.cfgSync, .setSyncMode .none, 5#4, .frame)] ∧
    (inPhase .cfgSync [.fail]).answers = [.fail] := by decide

theorem witness_FramePrependsTheSpacer :
    (inPhase .frame []).phase = .frame ∧
    Memory.readBytes (inPhase .frame []).pay 0 5 = some offPayload := by decide

/-- The first and the last transmission, answered ok and fail. -/
theorem witness_TxSendsTheFrame :
    ([0#4, 7#4].all fun k => [RadioAnswer.ok, .fail].all fun r =>
      let s := { inPhase .tx [r] with rep := k }
      s.phase == .tx && decide (s.rep < 8#4) && s.answers == [r] &&
        Memory.readBytes s.frame 0 10 == some offFrame) = true := by decide

theorem witness_TdIdleGoesOnToCleanup :
    (inPhase .tdIdle [.fail]).phase = .tdIdle ∧ (inPhase .tdIdle [.fail]).answers = [.fail] ∧
    (inPhase .tdIdle [.fail]).cause = 0#3 ∧ (inPhase .tdIdle [.ok]).answers = [.ok] := by decide

/-- A `fail` that is recorded, and one after another exception. -/
theorem witness_TdCleanupCompletes :
    (inPhase .tdCleanup [.fail]).phase = .tdCleanup ∧ (inPhase .tdCleanup [.fail]).answers = [.fail] ∧
    (4#3 : BitVec 3) =
      (if RadioAnswer.fail = .fail ∧ (inPhase .tdCleanup [.fail]).cause = 0#3 then 4#3
       else (inPhase .tdCleanup [.fail]).cause) ∧
    (3#3 : BitVec 3) =
      (if RadioAnswer.fail = .fail ∧ ({ inPhase .tdCleanup [.fail] with cause := 3#3 } : State).cause = 0#3
       then 4#3 else ({ inPhase .tdCleanup [.fail] with cause := 3#3 } : State).cause) := by decide

theorem witness_RaiseRecordsAndDiverts :
    (inPhase .tx []).held = true ∧ (latched .single .decode 0b0000#4).held = false ∧
    (inPhase .tx []).cause = 0#3 := by decide

/-- An exception is on record while `setIdle`, or `cleanup`, fails. -/
theorem witness_FirstExceptionWins :
    ∀ ph ∈ [Phase.tdIdle, .tdCleanup], ∃ s t : State, s.phase = ph ∧ s.phase ≠ .idle ∧ s.cause ≠ 0#3 ∧
      s.answers = [.fail] ∧ exec anOff s = .next t := by
  intro ph h
  simp only [List.mem_cons, List.not_mem_nil, or_false] at h
  rcases h with rfl | rfl
  · exact ⟨{ inPhase .tdIdle [.fail] with cause := 3#3 }, _, by decide, by decide, by decide, rfl, rfl⟩
  · exact ⟨{ inPhase .tdCleanup [.fail] with cause := 3#3 }, _, by decide, by decide, by decide, rfl, rfl⟩

/-- A failed configuration call and a failed last transmission. -/
theorem witness_FailedCallForcesTeardown :
    (∃ t, phaseCall (inPhase .cfgSync [.fail]) = some (.setSyncMode .none) ∧
      (inPhase .cfgSync [.fail]).held = true ∧ (inPhase .cfgSync [.fail]).cause = 0#3 ∧
      exec anOff (inPhase .cfgSync [.fail]) = .next t) ∧
    (∃ t, phaseCall { inPhase .tx [.fail] with rep := 7#4 } = some (.transmitRaw offFrame) ∧
      ({ inPhase .tx [.fail] with rep := 7#4 } : State).held = true ∧
      exec anOff { inPhase .tx [.fail] with rep := 7#4 } = .next t) :=
  ⟨⟨_, rfl, rfl, rfl, rfl⟩, ⟨_, by decide, rfl, rfl⟩⟩

theorem witness_InvalidCommandMakesNoRadioCall :
    (idleCore .single [0x0039#13] []).phase = .idle ∧
    (idleCore .single [0x0039#13] []).resetIn = false ∧
    (idleCore .single [0x0039#13] []).requests = [0x0039#13] ∧
    validCmd (idleCore .single [0x0039#13] []).cfg.profile (reqCmd 0x0039#13) = false := by decide

/-! Witnesses with the invariant: a core in DECODE, a core in TD_CLEANUP, an idle core after a run. -/

/-- The invariant holds of a core in DECODE with an illegal command. -/
theorem inv_decode : (latched .single .decode 0b1001#4).Inv where
  spec := by constructor <;> simp [latched, idleCore, State.reset, Phase.owesTeardown, Phase.beforeTx]
  discarded := by simp [latched]
  loaded := fun _ => ⟨false, 0b0000#4, 0b0011#4, 0b1001#4, by
    simp [latched, Phase.owesTeardown]⟩
  payForm := by decide
  frameForm := by decide
  repTx := by simp [latched]
  causeZero := fun _ _ _ => rfl
  causeTdIdle := by simp [latched]
  repEnd := by simp [latched, idleCore, State.reset]
  report := by simp [latched, idleCore, State.reset]
  outstanding := by simp [latched, idleCore, State.reset]

/-- A core in BUILD, with OFF in its latches. -/
def building : State := latched .single .build 0b1010#4

/-- The invariant holds of a core in BUILD. -/
theorem inv_building : building.Inv where
  spec := by
    constructor <;>
      simp [building, latched, idleCore, State.reset, Phase.owesTeardown, Phase.beforeTx]
  discarded := by simp [building, latched]
  loaded := fun _ => ⟨false, 0b0000#4, 0b0011#4, 0b1010#4, rfl, rfl, rfl, rfl, fun _ => by decide,
    by simp [building, latched, Phase.owesTeardown], by simp [building, latched],
    by simp [building, latched]⟩
  payForm := by decide
  frameForm := by decide
  repTx := by simp [building, latched]
  causeZero := fun _ _ _ => rfl
  causeTdIdle := by simp [building, latched]
  repEnd := by simp [building, latched, idleCore, State.reset]
  report := by simp [building, latched, idleCore, State.reset]
  outstanding := by simp [building, latched, idleCore, State.reset]

/-- A core in TD_IDLE after a failed third transmission, `setIdle` about to fail too
(95_test_vectors.md section 2.7, seventh row). -/
def cleaningAfterFailure : State :=
  { inPhase .tdIdle [.fail] with rep := 2#4, cause := 3#3, einfo := 3#4 }

/-- The invariant holds of that core. -/
theorem inv_cleaningAfterFailure : cleaningAfterFailure.Inv where
  spec := by
    constructor <;>
      simp [cleaningAfterFailure, inPhase, idleCore, State.reset, Phase.owesTeardown, Phase.beforeTx]
  discarded := by simp [cleaningAfterFailure, inPhase]
  loaded := fun _ => ⟨false, 0b0000#4, 0b0011#4, 0b1010#4, rfl, rfl, rfl, rfl, fun _ => by decide,
    fun _ => ⟨rfl, by decide⟩, by simp [cleaningAfterFailure, inPhase],
    by simp [cleaningAfterFailure, inPhase]⟩
  payForm := by decide
  frameForm := by decide
  repTx := by simp [cleaningAfterFailure, inPhase]
  causeZero := by simp [cleaningAfterFailure, inPhase]
  causeTdIdle := by simp [cleaningAfterFailure]
  repEnd := by simp [cleaningAfterFailure]
  report := by simp [cleaningAfterFailure, inPhase, idleCore, State.reset]
  outstanding := by simp [cleaningAfterFailure, inPhase, idleCore, State.reset]

/-- A core in TD_CLEANUP after eight transmissions. -/
def cleaning : State := { inPhase .tdCleanup [.ok] with rep := 8#4 }

/-- The invariant holds of a core in TD_CLEANUP. -/
theorem inv_cleaning : cleaning.Inv where
  spec := by
    constructor <;>
      simp [cleaning, inPhase, idleCore, State.reset, Phase.owesTeardown, Phase.beforeTx]
  discarded := by simp [cleaning, inPhase]
  loaded := fun _ => ⟨false, 0b0000#4, 0b0011#4, 0b1010#4, rfl, rfl, rfl, rfl, fun _ => by decide,
    fun _ => ⟨rfl, by decide⟩, by simp [cleaning, inPhase], by simp [cleaning, inPhase]⟩
  payForm := by decide
  frameForm := by decide
  repTx := by simp [cleaning, inPhase]
  causeZero := by simp [cleaning, inPhase]
  causeTdIdle := by simp [cleaning, inPhase]
  repEnd := fun _ _ => rfl
  report := by simp [cleaning, inPhase, idleCore, State.reset]
  outstanding := by simp [cleaning, inPhase, idleCore, State.reset]

/-- An idle core after a successful run that left this radio trace. -/
def ran (calls : List RadioCall) : State :=
  { idleCore .single [] [] with rep := 8#4, done := true, trace := calls }

/-- The invariant holds of an idle core after a run. -/
theorem inv_ran (calls : List RadioCall) : (ran calls).Inv where
  spec := by constructor <;> simp [ran, idleCore, State.reset, Phase.owesTeardown, Phase.beforeTx]
  discarded := fun _ => ⟨rfl, rfl, rfl, rfl, rfl, rfl, rfl⟩
  loaded := by simp [ran, idleCore, State.reset]
  payForm := ⟨rfl, rfl⟩
  frameForm := ⟨rfl, rfl⟩
  repTx := by simp [ran, idleCore, State.reset]
  causeZero := fun _ _ _ => rfl
  causeTdIdle := by simp [ran, idleCore, State.reset]
  repEnd := fun _ _ => rfl
  report := fun _ => rfl
  outstanding := by simp [ran, idleCore, State.reset]

theorem witness_DoneRisesOnlyAfterCleanup :
    (∃ t, cleaning.Inv ∧ step cleaning = .next t ∧ cleaning.done = false ∧ t.done = true) ∧
    (∃ t, (latched .single .decode 0b1001#4).Inv ∧ step (latched .single .decode 0b1001#4) = .next t ∧
      (latched .single .decode 0b1001#4).done = false ∧ t.done = true) :=
  ⟨⟨_, inv_cleaning, rfl, rfl, rfl⟩, ⟨_, inv_decode, rfl, rfl, rfl⟩⟩

/-- Accepting, completing, and a step between the two. -/
theorem witness_FlagsAreWrittenByAcceptAndCompletionOnly :
    (∃ t, exec anOff (idleCore .single [] []) = .next t ∧ (idleCore .single [] []).phase = .idle) ∧
    (∃ t, exec anOff cleaning = .next t ∧ cleaning.phase ≠ .idle ∧ t.phase = .idle) ∧
    (∃ t, exec anOff (inPhase .tx [.ok]) = .next t ∧ (inPhase .tx [.ok]).phase ≠ .idle ∧
      t.phase ≠ .idle) :=
  ⟨⟨_, rfl, rfl⟩, ⟨_, rfl, by decide, rfl⟩, ⟨_, rfl, by decide, by decide⟩⟩

/-- A step of the middle, BUILD, FRAME, and completion. -/
theorem witness_RegistersKeptByEveryCommand :
    (∃ t, exec anOff (inPhase .cfgMod [.ok]) = .next t ∧ t.phase ≠ .idle) ∧
    (∃ t, exec anOff (latched .single .build 0b1010#4) = .next t ∧ t.phase ≠ .idle ∧
      phaseCall (latched .single .build 0b1010#4) = none) ∧
    (∃ t, exec anOff (inPhase .frame []) = .next t ∧ t.phase ≠ .idle) ∧
    (∃ t, exec anOff cleaning = .next t ∧ t.phase = .idle) :=
  ⟨⟨_, rfl, by decide⟩, ⟨_, rfl, by decide, rfl⟩, ⟨_, rfl, by decide⟩, ⟨_, rfl, rfl⟩⟩

/-- BUILD and FRAME with an address just outside, a step that stores nothing, and completion. -/
theorem witness_BytesKeptByEveryCommand :
    (∃ t, exec anOff (latched .single .build 0b1010#4) = .next t ∧ t.phase ≠ .idle ∧ bufSize .pay ≤ 5) ∧
    (∃ t, exec anOff (inPhase .frame []) = .next t ∧ t.phase ≠ .idle ∧ bufSize .frame ≤ 10) ∧
    (∃ t, exec anOff (inPhase .tx [.ok]) = .next t ∧ t.phase ≠ .idle ∧
      (inPhase .tx [.ok]).phase ≠ .build ∧ (inPhase .tx [.ok]).phase ≠ .frame) ∧
    (∃ t, exec anOff cleaning = .next t ∧ cleaning.phase ≠ .idle ∧ t.phase = .idle) :=
  ⟨⟨_, rfl, by decide, by decide⟩, ⟨_, rfl, by decide, by decide⟩,
   ⟨_, rfl, by decide, by decide, by decide⟩, ⟨_, rfl, by decide, rfl⟩⟩

/-- The last byte of each buffer, the whole buffer, and addresses beside the access. -/
theorem witness_BufferAccessesReadWhatWasWritten :
    4 + ([0x64] : List Byte).length ≤ bufSize .pay ∧ 5 + offPayload.length ≤ bufSize .frame ∧
    0 + offFrame.length ≤ bufSize .frame ∧ (4 < 5 ∨ 5 + offPayload.length ≤ 4) ∧ Buf.frame ≠ Buf.pay ∧
    Memory.wf (bufMem .pay (inPhase .tx [])) = true := by decide

/-- An idle core, and a reachable one: after reset. -/
theorem witness_RepCountsOkTransmissions :
    (∃ t, exec anOff (idleCore .single [] []) = .next t) ∧
    (∃ t, exec anOff (inPhase .tx [.ok]) = .next t ∧ (inPhase .tx [.ok]).answers = [.ok]) ∧
    (∃ t, exec anOff (inPhase .tx [.fail]) = .next t ∧
      (inPhase .tx [.fail]).answers.head? ≠ some .ok) ∧
    Reachable (idleCore .single [] []) :=
  ⟨⟨_, rfl⟩, ⟨_, rfl, rfl⟩, ⟨_, rfl, by decide⟩, .reset _ _ _⟩

theorem witness_TraceGrowsByThePhasesCall : ∃ t, exec anOff (inPhase .tx [.ok]) = .next t := ⟨_, rfl⟩

theorem witness_EveryTransmissionCarriesTheSameFrame :
    ∃ t, (inPhase .tx [.ok]).phase = .tx ∧ exec anOff (inPhase .tx [.ok]) = .next t ∧ t.phase = .tx :=
  ⟨_, rfl, rfl, by decide⟩

/-- Each of the four clauses. -/
theorem witness_StepRunsTheDecodedInstruction :
    ((idleCore .single [0x003A#13] []).resetIn = false ∧ (idleCore .single [0x003A#13] []).phase = .idle ∧
      (idleCore .single [0x003A#13] []).requests = [0x003A#13] ∧
      decode (idleCore .single [0x003A#13] []).cfg.profile 0x003A#13 = .ok anOff) ∧
    ((inPhase .tx []).resetIn = false ∧ (inPhase .tx []).phase ≠ .idle ∧
      latchedWord (inPhase .tx []) = some 0x003A#13 ∧
      decode (inPhase .tx []).cfg.profile 0x003A#13 = .ok anOff) ∧
    decode (idleCore .single [0x0039#13] []).cfg.profile 0x0039#13 =
      .error (.invalidCommand 0b1001#4) ∧
    (idleCore .single [] []).requests = [] := by decide

theorem witness_PresentedRequestsAreNotSeenWhileBusy :
    ∃ t, (inPhase .tx [.ok]).phase ≠ .idle ∧ (inPhase .tx [.ok]).resetIn = false ∧
      step (inPhase .tx [.ok]) = .next t :=
  ⟨_, by decide, rfl, rfl⟩

theorem witness_ResetIsTakenInIdleOnly :
    ({ idleCore .single [] [] with resetIn := true } : State).phase = .idle ∧
    ({ inPhase .tx [] with resetIn := true } : State).phase ≠ .idle := by decide

theorem witness_NoStepChangesTheConfiguration :
    ∃ t, step (idleCore .dual [0x0039#13] []) = .next t := ⟨_, rfl⟩

/-- A configuration call and a transmission that are not answered. -/
theorem witness_UnansweredCallHangsTheCore :
    (phaseCall (inPhase .cfgFreq []) = some (.setFrequency 304300000) ∧
      (inPhase .cfgFreq []).answers = [] ∧ (inPhase .cfgFreq []).resetIn = false ∧
      (inPhase .cfgFreq []).hp ≠ none) ∧
    (phaseCall { inPhase .tx [] with rep := 7#4 } = some (.transmitRaw offFrame) ∧
      ({ inPhase .tx [] with rep := 7#4 } : State).rep < 8#4) := by decide

/-- Two idle cores with different pasts. -/
theorem witness_NothingIsCarriedOver :
    (ran []).Inv ∧ (ran [{ op := .cleanup, answer := .ok }]).Inv ∧ (ran []).phase = .idle ∧
    (ran [{ op := .cleanup, answer := .ok }]).phase = .idle ∧
    (ran []).cfg = (ran [{ op := .cleanup, answer := .ok }]).cfg ∧
    (ran []).answers = (ran [{ op := .cleanup, answer := .ok }]).answers :=
  ⟨inv_ran _, inv_ran _, rfl, rfl, rfl, rfl⟩

theorem witness_EveryStepKeepsTheInvariant : ∃ t, cleaning.Inv ∧ step cleaning = .next t :=
  ⟨_, inv_cleaning, rfl⟩

/-- A busy reachable core: OFF accepted after reset. -/
theorem witness_ReachableStatesMeetTheSpecsInvariants :
    ∃ s, Reachable s ∧ s.phase = .decode ∧ s.busy = true :=
  ⟨_, .step (.reset (cfgOf .single) [0x003A#13] []) rfl, rfl, rfl⟩

/-- A reachable core that refuses: reset asserted while busy. -/
theorem witness_NoReachableStateFaults :
    ∃ s, Reachable s ∧ step s = .refused .resetWhileBusy :=
  ⟨_, .host (.reset true) (.step (.reset (cfgOf .single) [0x003A#13] []) rfl), rfl⟩

/-- OFF with `HP`, four steps after reset. -/
theorem witness_MaxPowerOnlyUnderHighPower : ∃ s, Reachable s ∧ phaseCall s = some .setMaxPower :=
  ⟨_, .step (.step (.step (.step (.reset (cfgOf .single) [0x103A#13] [.ok]) rfl) rfl) rfl) rfl, rfl⟩

theorem witness_EndedRunStays :
    ((ran []).Ended ∧ (ran []).requests = [] ∧ (ran []).resetIn = false) ∧
    (∃ s, Reachable s ∧ s.busy = true) :=
  ⟨⟨⟨rfl, rfl, rfl⟩, rfl, rfl⟩, ⟨_, .step (.reset (cfgOf .single) [0x003A#13] []) rfl, rfl⟩⟩

/-- With and without `HP`; LIGHT2 and LIGHT1 under `DUAL`, LIGHT under `SINGLE`. -/
theorem witness_EveryCommandCompletes :
    ([(Profile.single, anOff), (.single, .slow true 0#4 0#4), (.dual, .medium true 0xF#4 0#4),
      (.dual, .fast false 0#4 0xF#4), (.single, .light true 0#4 3#4), (.dual, .light1 false 0#4 3#4),
      (.dual, .light2 true 0#4 3#4)].all fun (p, i) =>
      let s := idleCore p [] (List.replicate (15 + i.hp.toNat) .ok)
      s.phase == .idle && validCmd s.cfg.profile i.cmd &&
        s.answers == List.replicate (15 + i.hp.toNat) .ok ++ []) = true := by decide

/-- OFF with a radio that fails every call, and LIGHT2 with one that fails none. -/
theorem witness_EveryInvocationFollowsThePlan :
    (let s := idleCore .single [encode anOff] (List.replicate 15 .fail)
     s.phase = .idle ∧ s.resetIn = false ∧ s.requests = [encode anOff] ∧
     anOff.wf s.cfg.profile = true ∧
     (plannedCalls s.cfg.freqHz anOff.hp offFrame).length + 2 ≤ s.answers.length) ∧
    (let i : Instr := .light2 true 0b0110#4 0b1001#4
     let s := idleCore .dual [encode i] (List.replicate 16 .ok)
     s.phase = .idle ∧ s.resetIn = false ∧ s.requests = [encode i] ∧ i.wf s.cfg.profile = true ∧
     (plannedCalls s.cfg.freqHz i.hp offFrame).length + 2 ≤ s.answers.length) := by decide

/-- A `setIdle` that fails after another exception, and BUILD. -/
theorem witness_HostSeesNoProgress :
    (∃ t, cleaningAfterFailure.Inv ∧ cleaningAfterFailure.phase ≠ .idle ∧ t.phase ≠ .idle ∧
      cleaningAfterFailure.cause ≠ 0#3 ∧ exec anOff cleaningAfterFailure = .next t) ∧
    (∃ t, building.Inv ∧ building.phase ≠ .idle ∧ t.phase ≠ .idle ∧
      building.answers.head? ≠ some .fail ∧ exec anOff building = .next t) :=
  ⟨⟨_, inv_cleaningAfterFailure, by decide, by decide, by decide, rfl⟩,
   ⟨_, inv_building, by decide, by decide, by decide, rfl⟩⟩

end Sys2Proof.Tests
end

/-! What a step of the driver keeps and what it does to each group of registers, from the inversion
`DriverStep`: the frames (10_state.md R15 to R27) and the radio's side (R31). -/

namespace Sys2Proof.Machine

/-! ### What stays until completion -/

/-- `u` differs from `s` at most as a step of the driver that does not complete can make it differ: BUILD
writes `SYM`, `PAY[0..4]` and `HELD`, FRAME writes `FRAME[0..9]`, and the sequencer, `REP`, the cause and the
radio's side are left open. -/
structure State.Keeps (s u : State) : Prop where
  latches : u.hp = s.hp ∧ u.sw8 = s.sw8 ∧ u.sw9 = s.sw9 ∧ u.cmd = s.cmd
  flags : u.busy = s.busy ∧ u.done = s.done ∧ u.errf = s.errf
  inputs : u.cfg = s.cfg ∧ u.requests = s.requests ∧ u.resetIn = s.resetIn
  sym : s.phase ≠ .build → u.sym = s.sym
  held : s.phase ≠ .build → u.held = s.held
  pay : ∀ x, (s.phase = .build → bufSize .pay ≤ x) →
    Memory.readByte u.pay x = Memory.readByte s.pay x
  frame : ∀ x, (s.phase = .frame → bufSize .frame ≤ x) →
    Memory.readByte u.frame x = Memory.readByte s.frame x

theorem keeps_built (a b c : Nibble) {s : State} (h : s.phase = .build) : s.Keeps (built a b c s) where
  latches := ⟨rfl, rfl, rfl, rfl⟩
  flags := ⟨rfl, rfl, rfl⟩
  inputs := ⟨rfl, rfl, rfl⟩
  sym := fun hb => absurd h hb
  held := fun hb => absurd h hb
  pay := fun _ hx => readByte_writeBytes_outside _ _ (.inr (by simpa [bufSize] using hx h))
  frame := fun _ _ => rfl

theorem keeps_framed {payload : List Byte} {s : State} (h : s.phase = .frame)
    (hl : payload.length = 5) : s.Keeps (framed payload s) where
  latches := ⟨rfl, rfl, rfl, rfl⟩
  flags := ⟨rfl, rfl, rfl⟩
  inputs := ⟨rfl, rfl, rfl⟩
  sym := fun _ => rfl
  held := fun _ => rfl
  pay := fun _ _ => rfl
  frame := fun x hx => by
    have hx : 10 ≤ x := hx h
    calc Memory.readByte (framed payload s).frame x
        = Memory.readByte (Memory.writeBytes s.frame 0 spacer) x :=
          readByte_writeBytes_outside _ _ (by omega)
      _ = Memory.readByte s.frame x :=
          readByte_writeBytes_outside _ _ (by simp only [spacer, List.length]; omega)

/-- An exception goes to `TD_IDLE` or completes, and keeps the rest. -/
theorem raise_keeps (e : Exception) {s u : State} (h : s.Keeps (recordCause e u)) :
    (∃ v, s.Keeps v ∧ raise e u = complete v.cause v) ∨
      ((raise e u).phase ≠ .idle ∧ s.Keeps (raise e u)) := by
  rcases raise_cases e u with ⟨-, hr⟩ | ⟨-, hr⟩
  · rw [hr]; exact .inr ⟨by simp, { h with }⟩
  · exact .inl ⟨_, h, hr⟩

/-- A step of the driver completes or goes on, and until completion it keeps what `State.Keeps` says. -/
theorem DriverStep.keeps {s t : State} (h : DriverStep s t) :
    (∃ u, s.Keeps u ∧ t = complete u.cause u) ∨ (t.phase ≠ .idle ∧ s.Keeps t) := by
  cases h with
  | waits hc ha =>
    exact .inr ⟨by intro hi; simp [phaseCall, show s.phase = .idle from hi] at hc,
      by constructor <;> simp⟩
  | passed hp hc hv => exact .inr ⟨by simp, by constructor <;> simp⟩
  | rejected hp hc hv => exact raise_keeps _ (by constructor <;> simp)
  | built hp ha hb hc => exact .inr ⟨by simp [Machine.built], keeps_built _ _ _ hp⟩
  | configured hr ha =>
    obtain ⟨-, -, -, -, -, -, -, hi, -⟩ := configRow_phases hr
    exact .inr ⟨hi, by constructor <;> simp⟩
  | configFailed hr ha => exact raise_keeps _ (by constructor <;> simp)
  | framed hp hm => exact .inr ⟨by simp [Machine.framed], keeps_framed hp (readBytes_length hm)⟩
  | @sent bytes r rs hp hr hm ha =>
    cases r with
    | ok => exact .inr ⟨by simp only [transmitted]; split <;> simp, by constructor <;> simp [transmitted]⟩
    | fail => exact raise_keeps _ (by constructor <;> simp)
  | idled hp ha => exact .inr ⟨by simp, by constructor <;> simp⟩
  | cleaned hp ha => exact .inl ⟨_, by constructor <;> simp, rfl⟩

/-- A step of the driver that does not complete keeps what `State.Keeps` says. -/
theorem DriverStep.keeps_of_busy {s t : State} (h : DriverStep s t) (hn : t.phase ≠ .idle) : s.Keeps t := by
  rcases h.keeps with ⟨u, -, rfl⟩ | ⟨-, hk⟩
  · exact absurd rfl hn
  · exact hk

/-- A step of the driver that ends in `IDLE` is a completion (42_transmission_driver.md R111). -/
theorem DriverStep.completes {s t : State} (h : DriverStep s t) (hi : t.phase = .idle) :
    ∃ u, s.Keeps u ∧ t = complete u.cause u :=
  h.keeps.resolve_right fun hk => hk.1 hi

theorem DriverStep.inputs {s t : State} (h : DriverStep s t) :
    t.cfg = s.cfg ∧ t.requests = s.requests ∧ t.resetIn = s.resetIn := by
  rcases h.keeps with ⟨u, hk, rfl⟩ | ⟨-, hk⟩
  · exact hk.inputs
  · exact hk.inputs

/-- The third case of `step_cases`: the word taken from the host's list is accepted. -/
theorem accept_of_fetch {s t : State} {w : ReqWord} {ws : List ReqWord} (hp : s.phase = .idle)
    (h : runWord w { s with requests := ws } = .next t) :
    t = accept (reqHp w) (reqSw8 w) (reqSw9 w) (reqCmd w) { s with requests := ws } := by
  rw [runWord_idle w (by exact hp)] at h
  cases h
  rfl

/-! ### `REP`, the radio's side and the cause -/

@[simp] theorem transmitted_trace (r : RadioAnswer) (s : State) : (transmitted r s).trace = s.trace := by
  cases r <;> simp [transmitted]

@[simp] theorem transmitted_answers (r : RadioAnswer) (s : State) :
    (transmitted r s).answers = s.answers := by
  cases r <;> simp [transmitted]

@[simp] theorem transmitted_outstanding (r : RadioAnswer) (s : State) :
    (transmitted r s).outstanding = s.outstanding := by
  cases r <;> simp [transmitted]

theorem transmitted_ok_last {s : State} (h : s.rep + 1#4 = 8#4) :
    transmitted .ok s = { s with rep := 8#4, phase := .tdIdle } := by
  simp [transmitted, repeatCount, h]

theorem transmitted_ok_more {s : State} (h : s.rep + 1#4 ≠ 8#4) :
    transmitted .ok s = { s with rep := s.rep + 1#4, phase := .tx } := by
  simp [transmitted, repeatCount, h]

theorem transmitted_rep (r : RadioAnswer) (s : State) :
    (transmitted r s).rep = if r = .ok then s.rep + 1#4 else s.rep := by
  cases r <;> simp [transmitted]

/-- `REP` counts the transmissions answered ok and changes in no other step (10_state.md R22). -/
theorem DriverStep.rep_eq {s t : State} (h : DriverStep s t) :
    t.rep = if s.phase = .tx ∧ s.answers.head? = some .ok then s.rep + 1#4 else s.rep := by
  cases h with
  | waits hc ha => simp [ha]
  | passed hp hc hv => simp [hp]
  | rejected hp hc hv => simp [hp]
  | built hp ha hb hc => simp [hp, Machine.built]
  | configured hr ha =>
    obtain ⟨-, -, -, -, htx, -⟩ := configRow_phases hr
    simp [htx]
  | configFailed hr ha => simp [ha]
  | framed hp hm => simp [hp, Machine.framed]
  | sent hp hr hm ha => simp [hp, ha, transmitted_rep]
  | idled hp ha => simp [hp]
  | cleaned hp ha => simp [hp]

/-- The radio's side of a step: a phase without a call leaves it, a call without an answer waits, and an
answered call ends the trace and uses up the answer (10_state.md R31, 20_memory.md R48). -/
theorem DriverStep.radio {s t : State} (h : DriverStep s t) :
    (phaseCall s = none ∧ t.trace = s.trace ∧ t.answers = s.answers ∧ t.outstanding = s.outstanding) ∨
    (∃ op, phaseCall s = some op ∧ s.answers = [] ∧ t = awaiting op s) ∨
    (∃ op r, phaseCall s = some op ∧ s.answers = r :: t.answers ∧
      t.trace = s.trace ++ [{ op := op, answer := r }] ∧ t.outstanding = none) := by
  cases h with
  | waits hc ha => exact .inr (.inl ⟨_, hc, ha, rfl⟩)
  | passed hp hc hv => exact .inl ⟨by simp [phaseCall, hp], rfl, rfl, rfl⟩
  | rejected hp hc hv => exact .inl ⟨by simp [phaseCall, hp], by simp, by simp, by simp⟩
  | built hp ha hb hc => exact .inl ⟨by simp [phaseCall, hp], rfl, rfl, rfl⟩
  | configured hr ha => exact .inr (.inr ⟨_, _, configRow_phaseCall hr, ha, rfl, rfl⟩)
  | @configFailed op k p rs hr ha =>
    exact .inr (.inr ⟨op, .fail, configRow_phaseCall hr, by simp [ha], by simp, by simp⟩)
  | framed hp hm => exact .inl ⟨by simp [phaseCall, hp], rfl, rfl, rfl⟩
  | @sent bytes r rs hp hr hm ha =>
    exact .inr (.inr ⟨.transmitRaw bytes, r, by simp [phaseCall, hp, hm], by simp [ha], by simp, by simp⟩)
  | @idled r rs hp ha =>
    exact .inr (.inr ⟨.setIdle, r, by simp [phaseCall, hp], by simp [ha], by simp, by simp⟩)
  | @cleaned r rs hp ha =>
    exact .inr (.inr ⟨.cleanup, r, by simp [phaseCall, hp], by simp [ha], by simp, by simp⟩)

/-- `CAUSE` and `EINFO` of an exception taken on a cause already recorded are the old ones. -/
theorem recordCause_report (e : Exception) (s : State) :
    s.cause = 0#3 ∨ (recordCause e s).cause = s.cause ∧ (recordCause e s).einfo = s.einfo := by
  rcases recordCause_cases e s with ⟨h, -⟩ | ⟨-, h⟩
  · exact .inl h
  · exact .inr (by simp [h])

theorem recordTeardown_report (k : BitVec 4) (r : RadioAnswer) (s : State) :
    (r = .fail ∧ s.cause = 0#3) ∨
      (recordTeardown k r s).cause = s.cause ∧ (recordTeardown k r s).einfo = s.einfo := by
  cases r with
  | ok => exact .inr ⟨rfl, rfl⟩
  | fail => exact (recordCause_report (.teardownError k) s).imp (⟨rfl, ·⟩) id

/-- A step changes `CAUSE` or `EINFO` only where none is recorded, and there only where DECODE rejects the
command or the radio answers `fail` (60_exceptions.md R124 to R127, R132). -/
theorem DriverStep.report {s t : State} (h : DriverStep s t) :
    (t.cause = s.cause ∧ t.einfo = s.einfo) ∨
      (s.cause = 0#3 ∧ ((s.phase = .decode ∧ ∃ e, t = raise e s) ∨
        (phaseCall s ≠ none ∧ s.answers.head? = some .fail))) := by
  cases h with
  | waits hc ha => exact .inl ⟨rfl, rfl⟩
  | passed hp hc hv => exact .inl ⟨rfl, rfl⟩
  | @rejected c hp hc hv =>
    rw [raise_cause, raise_einfo]
    exact (recordCause_report (.invalidCommand c) s).symm.imp_right (⟨·, .inl ⟨hp, _, rfl⟩⟩)
  | built hp ha hb hc => exact .inl ⟨rfl, rfl⟩
  | configured hr ha => exact .inl ⟨rfl, rfl⟩
  | @configFailed op k p rs hr ha =>
    rw [raise_cause, raise_einfo]
    exact (recordCause_report _ (answered op .fail rs s)).symm.imp_right
      (⟨·, .inr ⟨by simp [configRow_phaseCall hr], by simp [ha]⟩⟩)
  | framed hp hm => exact .inl ⟨rfl, rfl⟩
  | @sent bytes r rs hp hr hm ha =>
    cases r with
    | ok => exact .inl ⟨rfl, rfl⟩
    | fail =>
      simp only [transmitted, raise_cause, raise_einfo]
      exact (recordCause_report _ (answered _ .fail rs s)).symm.imp_right
        (⟨·, .inr ⟨by simp [phaseCall, hp, hm], by simp [ha]⟩⟩)
  | @idled r rs hp ha =>
    exact (recordTeardown_report 0#4 r (answered .setIdle r rs s)).symm.imp_right fun ⟨hf, hc⟩ =>
      ⟨hc, .inr ⟨by simp [phaseCall, hp], by simp [ha, hf]⟩⟩
  | @cleaned r rs hp ha =>
    exact (recordTeardown_report 1#4 r (answered .cleanup r rs s)).symm.imp_right fun ⟨hf, hc⟩ =>
      ⟨hc, .inr ⟨by simp [phaseCall, hp], by simp [ha, hf]⟩⟩

end Sys2Proof.Machine

/-! The invariant of 10_state.md R35 in two normal forms, one for an idle core and one for a busy core, and
that every step keeps it. -/

namespace Sys2Proof.Machine

/-! ### The two forms of the invariant -/

/-- How far an invocation has come, by phase: what `REP` and `CAUSE` can be (10_state.md R22, R24). -/
def Phase.Progress (rep : BitVec 4) (cause : BitVec 3) : Phase → Prop
  | .tx => rep < 8#4 ∧ cause = 0#3
  | .tdIdle => rep ≤ 8#4 ∧ cause < 4#3 ∧ (cause = 0#3 → rep = 8#4)
  | .idle | .tdCleanup => rep ≤ 8#4 ∧ cause ≤ 4#3 ∧ (cause = 0#3 ∨ cause = 4#3 → rep = 8#4)
  | _ => rep = 0#4 ∧ cause = 0#3

theorem Phase.progress_beforeTx {p : Phase} (h : p.beforeTx = true) (rep : BitVec 4)
    (cause : BitVec 3) :
    p.Progress rep cause ↔ rep = 0#4 ∧ cause = 0#3 := by
  cases p <;> simp_all [Phase.beforeTx, Phase.Progress]

theorem Phase.Progress.rep_bounds {p : Phase} {rep : BitVec 4} {cause : BitVec 3}
    (h : p.Progress rep cause) : rep ≤ 8#4 ∧ (p.beforeTx = true → rep = 0#4) := by
  cases p <;> simp only [Phase.Progress] at h <;>
    exact ⟨by bv_omega, by simp [Phase.beforeTx, h]⟩

theorem Phase.Progress.cause_le {p : Phase} {rep : BitVec 4} {cause : BitVec 3}
    (h : p.Progress rep cause) : cause ≤ 4#3 := by
  cases p <;> simp only [Phase.Progress] at h <;> bv_omega

theorem Phase.Progress.cause_zero {p : Phase} {rep : BitVec 4} {cause : BitVec 3}
    (h : p.Progress rep cause) (h1 : p ≠ .idle) (h2 : p ≠ .tdIdle) (h3 : p ≠ .tdCleanup) :
    cause = 0#3 := by
  cases p <;> simp_all [Phase.Progress]

/-- The invariant of a busy core, without what follows from the rest. -/
structure State.Running (s : State) : Prop where
  phase : s.phase ≠ .idle
  busy : s.busy = true
  done : s.done = false
  errf : s.errf = false
  held : s.held = s.phase.owesTeardown
  loaded : s.Loaded
  payForm : Memory.wf s.pay = true ∧ Memory.below 5 s.pay = true
  frameForm : Memory.wf s.frame = true ∧ Memory.below 10 s.frame = true
  progress : s.phase.Progress s.rep s.cause
  outstanding : ∀ op, s.outstanding = some op → phaseCall s = some op

theorem State.Running.progress_at {s : State} {p : Phase} (h : s.Running) (hp : s.phase = p) :
    p.Progress s.rep s.cause := hp ▸ h.progress

/-- The invariant of an idle core, without what follows from the rest. -/
structure State.Resting (s : State) : Prop where
  phase : s.phase = .idle
  busy : s.busy = false
  held : s.held = false
  errf : s.errf = (s.done && s.cause != 0#3)
  rep : s.rep ≤ 8#4
  cause : s.cause ≤ 4#3
  success : s.done = true → s.cause = 0#3 ∨ s.cause = 4#3 → s.rep = 8#4
  discarded : s.hp = none ∧ s.sw8 = none ∧ s.sw9 = none ∧ s.cmd = none ∧ s.sym = none ∧
    s.pay = [] ∧ s.frame = []
  outstanding : s.outstanding = none

theorem State.Inv.running {s : State} (h : s.Inv) (hb : s.phase ≠ .idle) : s.Running where
  phase := hb
  busy := h.spec.busy.mpr hb
  done := by simpa using mt h.spec.done hb
  errf := by simpa using mt (fun he => h.spec.done (h.spec.errf he).1) hb
  held := Bool.eq_iff_iff.mpr h.spec.held
  loaded := h.loaded hb
  payForm := h.payForm
  frameForm := h.frameForm
  progress := by
    have hrep := h.spec.rep
    have hcause := h.spec.cause
    have htx := h.repTx
    have hzero := h.causeZero
    have hidle := h.causeTdIdle
    have hend := h.repEnd
    cases hp : s.phase <;> simp_all [Phase.beforeTx, Phase.Progress]
    case tdIdle => bv_omega
  outstanding := h.outstanding

theorem State.Inv.resting {s : State} (h : s.Inv) (hi : s.phase = .idle) : s.Resting where
  phase := hi
  busy := by simpa [hi] using h.spec.busy
  held := by simpa [hi, Phase.owesTeardown] using h.spec.held
  errf := by
    cases hd : s.done
    · simpa [hd] using h.spec.errf
    · simp [h.report hd]
  rep := h.spec.rep.1
  cause := h.spec.cause
  success := fun hd => h.repEnd (.inr (.inr hd))
  discarded := h.discarded hi
  outstanding := by
    have := h.outstanding
    simpa [phaseCall, hi, Option.eq_none_iff_forall_ne_some] using this

/-- Two adjacent ranges read as one are read one by one: the converse of `readBytes_append`. -/
theorem readBytes_split {m : Memory} {a j k : Nat} {xs ys : List Byte} (hx : xs.length = j)
    (h : Memory.readBytes m a (j + k) = some (xs ++ ys)) :
    Memory.readBytes m a j = some xs ∧ Memory.readBytes m (a + j) k = some ys := by
  obtain ⟨hl, hk⟩ := readBytes_eq_some.mp h
  rw [List.length_append] at hl
  refine ⟨readBytes_eq_some.mpr ⟨hx, fun i hi => ?_⟩,
    readBytes_eq_some.mpr ⟨by omega, fun i hi => ?_⟩⟩
  · rw [hk i (by omega), List.getElem?_append_left (by omega)]
  · rw [Nat.add_assoc, hk (j + i) (by omega), List.getElem?_append_right (by omega), hx,
      Nat.add_sub_cancel_left]

/-- In TX the ten bytes of `FRAME` are the spacer and the payload (10_state.md R35 (h)). -/
theorem State.Loaded.frameLayout {s : State} (h : s.Loaded) (hp : s.phase = .tx) : ∃ payload,
    Memory.readBytes s.pay 0 5 = some payload ∧
    Memory.readBytes s.frame 0 5 = some [0x00, 0x00, 0x00, 0x00, 0x00] ∧
    Memory.readBytes s.frame 5 5 = some payload := by
  obtain ⟨hp', a, b, c, -, -, -, -, -, hdata, -, hframe⟩ := h
  obtain ⟨-, hpay⟩ := hdata (by simp [hp, Phase.owesTeardown])
  exact ⟨_, hpay, readBytes_split (j := 5) (k := 5) rfl (hframe hp)⟩

theorem State.Running.inv {s : State} (h : s.Running) : s.Inv where
  spec :=
    { busy := by simp [h.busy, h.phase]
      done := by simp [h.done]
      errf := by simp [h.errf]
      held := by rw [h.held]
      rep := h.progress.rep_bounds
      cause := h.progress.cause_le
      noCause := by
        rintro (hp | hp)
        · exact (h.progress_at hp).2
        · exact (h.progress_at hp).2
      frameLayout := h.loaded.frameLayout }
  discarded := fun hi => absurd hi h.phase
  loaded := fun _ => h.loaded
  payForm := h.payForm
  frameForm := h.frameForm
  repTx := fun hp => (h.progress_at hp).1
  causeZero := h.progress.cause_zero
  causeTdIdle := fun hp => by
    obtain ⟨-, hcause, -⟩ := h.progress_at hp
    exact BitVec.ne_of_lt hcause
  repEnd := by
    rintro (hp | hp | hd) hc
    · obtain ⟨-, hcause, hend⟩ := h.progress_at hp
      exact hend (hc.resolve_right (BitVec.ne_of_lt hcause))
    · obtain ⟨-, -, hend⟩ := h.progress_at hp
      exact hend hc
    · simp [h.done] at hd
  report := by simp [h.done]
  outstanding := h.outstanding

theorem State.Resting.inv {s : State} (h : s.Resting) : s.Inv where
  spec :=
    { busy := by simp [h.busy, h.phase]
      done := fun _ => h.phase
      errf := by simp [h.errf]
      held := by simp [h.held, h.phase, Phase.owesTeardown]
      rep := ⟨h.rep, by simp [h.phase, Phase.beforeTx]⟩
      cause := h.cause
      noCause := by simp [h.phase]
      frameLayout := by simp [h.phase] }
  discarded := fun _ => h.discarded
  loaded := fun hb => absurd h.phase hb
  payForm := by simp [h.discarded, Memory.wf, Memory.below]
  frameForm := by simp [h.discarded, Memory.wf, Memory.below]
  repTx := by simp [h.phase]
  causeZero := fun hb => absurd h.phase hb
  causeTdIdle := by simp [h.phase]
  repEnd := by simpa [h.phase] using h.success
  report := fun hd => by simp [h.errf, hd]
  outstanding := by simp [h.outstanding]

/-! ### Moves between the phases that owe a teardown -/

/-- A running core whose call is answered. -/
theorem running_answered {s : State} (h : s.Running) (op : RadioOp) (r : RadioAnswer)
    (rs : List RadioAnswer) : (answered op r rs s).Running :=
  { h with outstanding := by simp }

/-- A running core whose call finds no answer. -/
theorem running_awaiting {s : State} (h : s.Running) {op : RadioOp}
    (hc : phaseCall s = some op) : (awaiting op s).Running :=
  { h with outstanding := by rintro _ ⟨⟩; exact hc }

theorem State.Running.outstanding_none {s : State} (h : s.Running) (hc : phaseCall s = none) :
    s.outstanding = none := by
  cases ho : s.outstanding with
  | none => rfl
  | some op => simpa [hc] using h.outstanding op ho

/-- A move to another phase with a teardown owed changes nothing of what the latches and buffers hold. -/
theorem loaded_move {s : State} (h : s.Loaded) {p : Phase} {n : BitVec 4} {c : BitVec 3}
    {k : BitVec 4} (howes : s.phase.owesTeardown = true) (hpower : p = .cfgPower → s.hp = some true)
    (htx : p = .tx → s.phase = .tx) :
    ({ s with phase := p, rep := n, cause := c, einfo := k } : State).Loaded := by
  obtain ⟨hp, a, b, cmd, h1, h2, h3, h4, hvalid, hdata, -, hframe⟩ := h
  have hdec : s.phase ≠ .decode := fun hd => by simp [hd, Phase.owesTeardown] at howes
  exact ⟨hp, a, b, cmd, h1, h2, h3, h4, fun _ => hvalid hdec, fun _ => hdata howes,
    fun hq => by simpa [h1] using hpower hq, fun hq => hframe (htx hq)⟩

/-- A running core between calls that moves to another phase with a teardown owed stays a running core. -/
theorem running_move {s : State} (h : s.Running) {p : Phase} {n : BitVec 4} {c : BitVec 3}
    {k : BitVec 4} (ho : s.outstanding = none) (howes : s.phase.owesTeardown = true)
    (howes' : p.owesTeardown = true) (hpower : p = .cfgPower → s.hp = some true)
    (htx : p = .tx → s.phase = .tx) (hprog : p.Progress n c) :
    ({ s with phase := p, rep := n, cause := c, einfo := k } : State).Running :=
  { h with
    phase := by rintro rfl; cases howes'
    held := by simpa [howes, howes'] using h.held
    loaded := loaded_move h.loaded howes hpower htx
    progress := hprog
    outstanding := by simp [ho] }

/-- Taking an exception before the teardown, with a cause of its own and a teardown owed. -/
theorem running_raise {s : State} (h : s.Running) {e : Exception} (ho : s.outstanding = none)
    (howes : s.phase.owesTeardown = true) (hcause : s.cause = 0#3) (hrep : s.rep ≤ 8#4)
    (hcode : e.code ≠ 0#3 ∧ e.code < 4#3) : (raise e s).Running := by
  rw [raise_of_held e (h.held.trans howes), recordCause_of_zero e hcause]
  exact running_move h (n := s.rep) ho howes rfl (by simp) (by simp)
    ⟨hrep, hcode.2, fun hz => absurd hz hcode.1⟩

/-- Completion of an invocation whose calls have been answered. -/
theorem resting_complete {s : State} (ho : s.outstanding = none)
    (h : Phase.idle.Progress s.rep s.cause) : (complete s.cause s).Resting := by
  obtain ⟨hrep, hcause, hend⟩ := h
  exact ⟨rfl, rfl, rfl, by simp, hrep, hcause, fun _ => hend, ⟨rfl, rfl, rfl, rfl, rfl, rfl, rfl⟩, ho⟩

/-! ### The rules of the driver, one by one -/

theorem running_accept {s : State} (h : s.Resting) (hp : Bool) (a b c : Nibble) :
    (accept hp a b c s).Running := by
  obtain ⟨-, -, -, -, -, hpay, hframe⟩ := h.discarded
  exact
    { phase := by simp
      busy := rfl
      done := rfl
      errf := rfl
      held := rfl
      loaded := ⟨hp, a, b, c, by simp [Phase.owesTeardown]⟩
      payForm := by simp [hpay, Memory.wf, Memory.below]
      frameForm := by simp [hframe, Memory.wf, Memory.below]
      progress := ⟨rfl, rfl⟩
      outstanding := by simp [h.outstanding] }

theorem running_passed {s : State} (h : s.Running) (hp : s.phase = .decode) {c : Nibble}
    (hc : s.cmd = some c) (hv : validCmd s.cfg.profile c = true) :
    ({ s with phase := .build } : State).Running :=
  { h with
    phase := by simp
    held := by simp [h.held, hp, Phase.owesTeardown]
    loaded := by
      obtain ⟨hp', a, b, c', h1, h2, h3, h4, -⟩ := h.loaded
      obtain rfl : c = c' := by simpa [hc] using h4
      exact ⟨hp', a, b, c, h1, h2, h3, h4, fun _ => hv, by simp [Phase.owesTeardown]⟩
    progress := by
      have hprog := h.progress_at hp
      exact hprog
    outstanding := by simp [h.outstanding_none (by simp [phaseCall, hp])] }

theorem resting_rejected {s : State} (h : s.Running) (hp : s.phase = .decode) (c : Nibble) :
    (raise (.invalidCommand c) s).Resting := by
  obtain ⟨hrep, hcause⟩ := h.progress_at hp
  rw [raise_of_not_held _ (by simp [h.held, hp, Phase.owesTeardown]), recordCause_of_zero _ hcause]
  exact resting_complete (h.outstanding_none (by simp [phaseCall, hp]))
    (by simp [Phase.Progress, hrep, Exception.code])

theorem running_built {s : State} (h : s.Running) (hp : s.phase = .build) {a b c : Nibble}
    (ha : s.sw8 = some a) (hb : s.sw9 = some b) (hc : s.cmd = some c) : (built a b c s).Running :=
  { h with
    phase := by simp [built]
    held := rfl
    loaded := by
      obtain ⟨hp', a', b', c', h1, h2, h3, h4, hvalid, -⟩ := h.loaded
      obtain rfl : c = c' := by simpa [hc] using h4
      refine ⟨hp', a, b, c, h1, ha, hb, hc, fun _ => hvalid (by simp [hp]), fun _ => ⟨rfl, ?_⟩,
        by simp [built], by simp [built]⟩
      exact readBytes_writeBytes (peEncode s.cfg.padPolicy a b c) s.pay 0
    payForm := ⟨wf_writeBytes _ _ _ h.payForm.1, below_writeBytes _ _ (by simp) h.payForm.2⟩
    progress := by
      have hprog := h.progress_at hp
      exact hprog
    outstanding := by simp [built, h.outstanding_none (by simp [phaseCall, hp])] }

/-- A configuration phase and its successor lie before TX, with a teardown owed; `setMaxPower` follows under
`HP` only. -/
theorem configRow_owes {s : State} {op : RadioOp} {k : BitVec 4} {p : Phase}
    (h : configRow s = some (op, k, p)) :
    (s.phase.owesTeardown = true ∧ s.phase.beforeTx = true) ∧
      (p.owesTeardown = true ∧ p.beforeTx = true) ∧ (p = .cfgPower → s.hp = some true) := by
  obtain ⟨h1, h2, h3, -, h4, h5, h6, h7, h8, h9, h10, h11, h12, hpower⟩ := configRow_phases h
  refine ⟨?_, ?_, hpower⟩
  · revert h1 h2 h3 h4 h5 h6; cases s.phase <;> decide
  · revert h7 h8 h9 h10 h11 h12; cases p <;> decide

theorem running_configured {s : State} (h : s.Running) {op : RadioOp} {k : BitVec 4} {p : Phase}
    (hr : configRow s = some (op, k, p)) (rs : List RadioAnswer) :
    ({ answered op .ok rs s with phase := p } : State).Running := by
  obtain ⟨⟨howes, hbefore⟩, ⟨howes', hbefore'⟩, hpower⟩ := configRow_owes hr
  have hprog := (Phase.progress_beforeTx hbefore _ _).mp h.progress
  exact running_move (running_answered h op .ok rs) (n := s.rep) (c := s.cause) (k := s.einfo) rfl
    howes howes' hpower (by rintro rfl; cases hbefore')
    ((Phase.progress_beforeTx hbefore' _ _).mpr hprog)

theorem running_configFailed {s : State} (h : s.Running) {op : RadioOp} {k : BitVec 4} {p : Phase}
    (hr : configRow s = some (op, k, p)) (rs : List RadioAnswer) :
    (raise (.radioConfigurationError k) (answered op .fail rs s)).Running := by
  obtain ⟨⟨howes, hbefore⟩, -⟩ := configRow_owes hr
  obtain ⟨hrep, hcause⟩ := (Phase.progress_beforeTx hbefore _ _).mp h.progress
  exact running_raise (running_answered h op .fail rs) rfl howes hcause (by simp [hrep])
    (by simp [Exception.code])

theorem running_framed {s : State} (h : s.Running) (hp : s.phase = .frame) {payload : List Byte}
    (hm : Memory.readBytes s.pay 0 5 = some payload) : (framed payload s).Running :=
  { h with
    phase := by simp [framed]
    held := by simp [framed, h.held, hp, Phase.owesTeardown]
    loaded := by
      obtain ⟨hp', a, b, c, h1, h2, h3, h4, hvalid, hdata, -⟩ := h.loaded
      have hdata := hdata (by simp [hp, Phase.owesTeardown])
      obtain rfl : payload = peEncode s.cfg.padPolicy a b c := by simpa [hm] using hdata.2
      obtain ⟨hspacer, hpayload⟩ := readBytes_spacer_payload s.frame (readBytes_length hm)
      exact ⟨hp', a, b, c, h1, h2, h3, h4, fun _ => hvalid (by simp [hp]), fun _ => hdata,
        by simp [framed], fun _ => readBytes_append hspacer hpayload⟩
    frameForm := ⟨wf_writeBytes _ _ _ (wf_writeBytes _ _ _ h.frameForm.1),
      below_writeBytes _ _ (by simp [readBytes_length hm])
        (below_writeBytes _ _ (by simp [spacer]) h.frameForm.2)⟩
    progress := by
      obtain ⟨hrep, hcause⟩ := h.progress_at hp
      simp [framed, Phase.Progress, hrep, hcause]
    outstanding := by simp [framed, h.outstanding_none (by simp [phaseCall, hp])] }

theorem running_sent {s : State} (h : s.Running) (hp : s.phase = .tx) (op : RadioOp)
    (r : RadioAnswer) (rs : List RadioAnswer) :
    (transmitted r (answered op r rs s)).Running := by
  obtain ⟨hrep, hcause⟩ := h.progress_at hp
  have hans := running_answered h op r rs
  have howes : s.phase.owesTeardown = true := by simp [hp, Phase.owesTeardown]
  cases r with
  | ok =>
    by_cases hlast : s.rep + 1#4 = 8#4
    · rw [transmitted_ok_last (s := answered op .ok rs s) hlast]
      exact running_move hans (c := s.cause) (k := s.einfo) rfl howes rfl (by simp) (by simp)
        ⟨by decide, by simp [hcause], fun _ => rfl⟩
    · have hmore : s.rep + 1#4 < 8#4 := by bv_omega
      rw [transmitted_ok_more (s := answered op .ok rs s) hlast]
      exact running_move hans (c := s.cause) (k := s.einfo) rfl howes rfl (by simp) (fun _ => hp)
        ⟨hmore, hcause⟩
  | fail => exact running_raise hans rfl howes hcause (BitVec.le_of_lt hrep) (by simp [Exception.code])

/-- A teardown answer records a first `TeardownError` after eight transmissions answered ok only. -/
theorem recordTeardown_progress (k : BitVec 4) (r : RadioAnswer) {s : State}
    (h : Phase.tdCleanup.Progress s.rep s.cause) :
    Phase.tdCleanup.Progress (recordTeardown k r s).rep (recordTeardown k r s).cause := by
  cases r with
  | ok => exact h
  | fail =>
    obtain ⟨hrep, hcause, hend⟩ := h
    rw [recordTeardown_fail]
    rcases recordCause_cases (.teardownError k) s with ⟨hz, he⟩ | ⟨-, he⟩ <;> rw [he]
    · exact ⟨hrep, by simp [Exception.code], fun _ => hend (.inl hz)⟩
    · exact ⟨hrep, hcause, hend⟩

theorem running_idled {s : State} (h : s.Running) (hp : s.phase = .tdIdle) (r : RadioAnswer)
    (rs : List RadioAnswer) :
    ({ recordTeardown 0#4 r (answered .setIdle r rs s) with phase := .tdCleanup } : State).Running := by
  obtain ⟨hrep, hcause, hend⟩ := h.progress_at hp
  have hprog := recordTeardown_progress 0#4 r (s := answered .setIdle r rs s)
    ⟨hrep, BitVec.le_of_lt hcause, fun hc => hend (hc.resolve_right (BitVec.ne_of_lt hcause))⟩
  rw [recordTeardown_eq] at hprog ⊢
  exact running_move (running_answered h .setIdle r rs) (n := s.rep) rfl
    (by simp [hp, Phase.owesTeardown]) rfl (by simp) (by simp) hprog

theorem resting_cleaned {s : State} (h : s.Running) (hp : s.phase = .tdCleanup) (r : RadioAnswer)
    (rs : List RadioAnswer) :
    (complete (recordTeardown 1#4 r (answered .cleanup r rs s)).cause
        (recordTeardown 1#4 r (answered .cleanup r rs s))).Resting :=
  resting_complete (by simp) (recordTeardown_progress 1#4 r (h.progress_at hp))

/-! ### Every step keeps the invariant -/

/-- A step of the driver goes from a running core to a running or a resting one. -/
theorem DriverStep.running_or_resting {s t : State} (hd : DriverStep s t) (h : s.Running) :
    t.Running ∨ t.Resting := by
  cases hd with
  | waits hc ha => exact .inl (running_awaiting h hc)
  | passed hp hc hv => exact .inl (running_passed h hp hc hv)
  | rejected hp hc hv => exact .inr (resting_rejected h hp _)
  | built hp ha hb hc => exact .inl (running_built h hp ha hb hc)
  | configured hr ha => exact .inl (running_configured h hr _)
  | configFailed hr ha => exact .inl (running_configFailed h hr _)
  | framed hp hm => exact .inl (running_framed h hp hm)
  | sent hp hr hm ha => exact .inl (running_sent h hp _ _ _)
  | idled hp ha => exact .inl (running_idled h hp _ _)
  | cleaned hp ha => exact .inr (resting_cleaned h hp _ _)

theorem DriverStep.inv {s t : State} (hd : DriverStep s t) (h : s.Inv) (hb : s.phase ≠ .idle) :
    t.Inv := by
  rcases hd.running_or_resting (h.running hb) with ht | ht
  · exact ht.inv
  · exact ht.inv

/-- The invariant says nothing of the host's inputs and of the radio's coming answers. -/
theorem State.Inv.with_inputs {s : State} (h : s.Inv) (ws : List ReqWord) (b : Bool)
    (rs : List RadioAnswer) :
    ({ s with requests := ws, resetIn := b, answers := rs } : State).Inv :=
  { h with spec := { h.spec with } }

/-- A core after reset is at rest, under every configuration and all inputs. -/
theorem resting_reset (cfg : Cfg) (ws : List ReqWord) (rs : List RadioAnswer) :
    ({ State.reset with cfg := cfg, requests := ws, answers := rs } : State).Resting := by
  constructor <;> simp [State.reset]

theorem step_inv {s t : State} (h : s.Inv) (hs : step s = .next t) : t.Inv := by
  rcases step_cases hs with ⟨-, -, rfl⟩ | ⟨-, -, -, rfl⟩ | ⟨w, ws, -, hp, -, hw⟩ | ⟨-, hb, hd⟩
  · exact (resting_reset _ _ _).inv
  · exact h
  · rw [accept_of_fetch hp hw]
    exact (running_accept ((h.with_inputs ws s.resetIn s.answers).resting hp) _ _ _ _).inv
  · exact hd.inv h hb

theorem Reachable.inv {s : State} (h : Reachable s) : s.Inv := by
  induction h with
  | reset cfg ws rs => exact (resting_reset cfg ws rs).inv
  | step _ hs ih => exact step_inv ih hs
  | @host s w _ ih =>
    cases w with
    | request words => exact ih.with_inputs words s.resetIn s.answers
    | reset asserted => exact ih.with_inputs s.requests asserted s.answers
  | @answer s rs _ ih => exact ih.with_inputs s.requests s.resetIn rs

/-! ### The statements -/

/-- Settles O45: a step resets, waits, accepts a request, or takes a rule of the driver from a running core to
a running or resting one. -/
theorem everyStepKeepsTheInvariant : Obligations.EveryStepKeepsTheInvariant :=
  fun _ _ h hs => step_inv h hs

/-- Settles O44: the reset state is at rest under every configuration, so under the one it starts with. -/
theorem resetMeetsTheInvariant : Obligations.ResetMeetsTheInvariant :=
  (resting_reset Config.cfg [] Config.radioAnswers).inv

/-- Settles O46: the invariant holds of every reachable state, by induction on how it is reached. -/
theorem reachableStatesMeetTheSpecsInvariants : Obligations.ReachableStatesMeetTheSpecsInvariants :=
  fun _ h => h.inv.spec

end Sys2Proof.Machine

/-! The statements on what an execution and a step leave unchanged, on the invariant's consequences, and on
the host's port. -/

namespace Sys2Proof.Machine

/-! ### Frames -/

/-- Settles O30: `accept` sets the flags, completion writes them from `CAUSE`, and the rest keeps them. -/
theorem flagsAreWrittenByAcceptAndCompletionOnly :
    Obligations.FlagsAreWrittenByAcceptAndCompletionOnly := by
  refine ⟨fun i s t h => ?_, fun s => ⟨rfl, rfl, rfl⟩⟩
  rcases exec_cases h with ⟨hp, rfl⟩ | ⟨hb, hd⟩
  · exact ⟨fun _ => ⟨rfl, rfl, rfl⟩, fun hn => absurd hp hn, fun hn => absurd hp hn⟩
  · refine ⟨fun hp => absurd hp hb, fun _ hi => ?_, fun _ hn => (hd.keeps_of_busy hn).flags⟩
    obtain ⟨u, -, rfl⟩ := hd.completes hi
    exact ⟨rfl, rfl, rfl⟩

/-- Settles O31: register by register from what `accept` loads and what the driver keeps until completion. -/
theorem registersKeptByEveryCommand : Obligations.RegistersKeptByEveryCommand := by
  intro i s t h
  rcases exec_cases h with ⟨hp, rfl⟩ | ⟨-, hd⟩
  · simp [hp]
  · have hcall : s.phase = .build ∨ s.phase = .frame → phaseCall s = none ∧ s.phase ≠ .decode := by
      rintro (hp | hp) <;> simp [phaseCall, hp]
    obtain ⟨hcfg, hreq, hres⟩ := hd.inputs
    refine ⟨fun _ hn => (hd.keeps_of_busy hn).latches, fun hb hn => (hd.keeps_of_busy hn).sym hb,
      fun _ htx => by simpa [htx] using hd.rep_eq, fun hp => ?_,
      fun _ hb hn => (hd.keeps_of_busy hn).held hb, hcfg, hreq, hres, fun hnone => ?_⟩
    · obtain ⟨hnone, hdec⟩ := hcall hp
      exact hd.report.resolve_right (by simp [hnone, hdec])
    · rcases hd.radio with ⟨-, hkept⟩ | ⟨op, hop, -⟩ | ⟨op, r, hop, -⟩
      · exact hkept
      · simp [hnone] at hop
      · simp [hnone] at hop

/-- Settles O32: `accept` stores nothing, the driver stores in BUILD and FRAME only, completion discards. -/
theorem bytesKeptByEveryCommand : Obligations.BytesKeptByEveryCommand := by
  intro i s t h
  rcases exec_cases h with ⟨hp, rfl⟩ | ⟨-, hd⟩
  · exact ⟨fun _ _ _ => rfl, fun _ _ _ => rfl, fun hn => absurd hp hn⟩
  · refine ⟨fun hn => (hd.keeps_of_busy hn).pay, fun hn => (hd.keeps_of_busy hn).frame, fun _ hi x => ?_⟩
    obtain ⟨u, -, rfl⟩ := hd.completes hi
    exact ⟨rfl, rfl⟩

/-- Settles O35: the three cases of the radio's side; a call that waits leaves trace and answers. -/
theorem traceGrowsByThePhasesCall : Obligations.TraceGrowsByThePhasesCall := by
  intro i s t h
  rcases exec_cases h with ⟨-, rfl⟩ | ⟨-, hd⟩
  · exact .inl ⟨rfl, rfl⟩
  · rcases hd.radio with ⟨-, htrace, hans, -⟩ | ⟨op, -, -, rfl⟩ | ⟨op, r, hop, hans, htrace, -⟩
    · exact .inl ⟨htrace, hans⟩
    · exact .inl ⟨rfl, rfl⟩
    · exact .inr ⟨op, r, hop, hans, htrace⟩

/-- Settles O41: reset takes the configuration over, and neither `accept` nor the driver writes it. -/
theorem noStepChangesTheConfiguration : Obligations.NoStepChangesTheConfiguration := by
  intro s t h
  rcases step_cases h with ⟨-, -, rfl⟩ | ⟨-, -, -, rfl⟩ | ⟨w, ws, -, hp, -, hw⟩ | ⟨-, -, hd⟩
  · rfl
  · rfl
  · rw [accept_of_fetch hp hw]
    rfl
  · exact hd.inputs.1

/-! ### Consequences of the invariant -/

/-- Settles O34: the count from the driver's rules, its bounds from the invariant of the reachable states. -/
theorem repCountsOkTransmissions : Obligations.RepCountsOkTransmissions := by
  refine ⟨fun i s t h => ?_, fun s => rfl, fun s hs => ?_⟩
  · rcases exec_cases h with ⟨hp, rfl⟩ | ⟨hb, hd⟩
    · simp [hp]
    · refine ⟨fun hp => absurd hp hb, fun rs hp ha => ?_, fun _ hn => ?_⟩
      · simp [hd.rep_eq, hp, ha]
      · rw [hd.rep_eq, if_neg fun hc => hn hc.1 hc.2]
  · exact ⟨hs.inv.spec.rep.1, fun hd hc => hs.inv.repEnd (.inr (.inr hd)) (.inl hc)⟩

/-- Settles O43: an idle core with the invariant holds no value that `accept` does not load. -/
theorem nothingIsCarriedOver : Obligations.NothingIsCarriedOver := by
  intro i s s' hs hs' hp hp' hcfg hans
  refine ⟨_, _, exec_idle i hp, exec_idle i hp', ?_⟩
  have hr := hs.resting hp
  have hr' := hs'.resting hp'
  obtain ⟨-, -, -, -, hsym, hpay, hframe⟩ := hr.discarded
  obtain ⟨-, -, -, -, hsym', hpay', hframe'⟩ := hr'.discarded
  simp [accept, flagsAccepted, loadLatches, hsym, hpay, hframe, hsym', hpay', hframe', hcfg, hans,
    hr.outstanding, hr'.outstanding]

/-- A running core reads no register without a value, and transmits at `REP` of at most 7 only. -/
theorem State.Running.no_fault {s : State} (h : s.Running) (f : Fault) : ¬ DriverFault s f := by
  obtain ⟨hp, a, b, c, h1, h2, h3, h4, -, hdata, -, hframe⟩ := h.loaded
  intro hf
  cases hf with
  | cmd _ hn => simp [hn] at h4
  | sw8 _ hn => simp [hn] at h2
  | sw9 _ hn => simp [hn] at h3
  | hp _ hn => simp [hn] at h1
  | pay hph hn => simpa [hn] using hdata (by simp [hph, Phase.owesTeardown])
  | frame hph hn => simpa [hn] using hframe hph
  | rep hph hn =>
    obtain ⟨hrep, -⟩ := h.progress_at hph
    exact hn hrep

/-- The one refusal of a step (70_reset_and_hazards.md R149). -/
theorem step_refused {s : State} {r : Refusal} (h : step s = .refused r) :
    r = .resetWhileBusy ∧ s.resetIn = true ∧ s.phase ≠ .idle := by
  cases hr : s.resetIn
  · by_cases hp : s.phase = .idle
    · cases hq : s.requests with
      | nil => rw [step_wait hr hp hq] at h; cases h
      | cons w ws => rw [step_fetch hr hp hq, runWord_idle w (by exact hp)] at h; cases h
    · rw [step_busy hr hp] at h
      rcases advance_outcome s with ⟨t, ht⟩ | ⟨f, hf, -⟩
      · rw [ht] at h; cases h
      · rw [hf] at h; cases h
  · rw [step_reset hr, stepReset] at h
    split at h
    · cases h
    · next hp => cases h; exact ⟨rfl, rfl, hp⟩

/-- Settles O47: a fault is a fault of the driver, which the invariant shuts out. -/
theorem noReachableStateFaults : Obligations.NoReachableStateFaults := by
  refine fun s hs => ⟨fun f hf => ?_, fun r hr => step_refused hr⟩
  obtain ⟨-, hb, hd⟩ := step_fault hf
  exact (hs.inv.running hb).no_fault f hd

/-- Settles O53: the flags are kept, and `CAUSE` and `EINFO` too: a rejected command completes at once, and the
other exceptions are failed calls without an earlier cause. -/
theorem hostSeesNoProgress : Obligations.HostSeesNoProgress := by
  intro i s t hs h hb hn hq
  obtain ⟨-, hd⟩ := (exec_cases h).resolve_left fun hi => hb hi.1
  obtain ⟨hbusy, hdone, herrf⟩ := (hd.keeps_of_busy hn).flags
  have hkept : t.cause = s.cause ∧ t.einfo = s.einfo := by
    rcases hd.report with hk | ⟨hz, ⟨hp, e, rfl⟩ | ⟨-, hf⟩⟩
    · exact hk
    · have hheld : s.held = false := by simp [(hs.running hb).held, hp, Phase.owesTeardown]
      simp [raise_of_not_held e hheld] at hn
    · exact absurd hz (hq.resolve_left (not_not_intro hf))
  exact hostRead_eq_iff.mpr ⟨hbusy, hdone, herrf, hkept⟩

/-! ### Reset values and the host's port -/

/-- Settles O39: the values of `State.reset`, which `applyReset` takes over but for the configuration. -/
theorem resetLeavesTheResetValues : Obligations.ResetLeavesTheResetValues := by
  intro s
  refine ⟨rfl, rfl, rfl, rfl, rfl, rfl, rfl, rfl, rfl, rfl, rfl, rfl, rfl, fun x => ?_, fun x => ?_,
    rfl, rfl, rfl⟩
  · exact readByte_nil x
  · exact readByte_nil x

/-- Settles O52, from the laws of the host's port. -/
theorem hostReadsTheReportAndWritesItsInputs : Obligations.HostReadsTheReportAndWritesItsInputs :=
  ⟨fun _ _ => hostRead_eq_iff, fun s words => hostWrite_request words s,
    fun s asserted => hostWrite_reset asserted s⟩

end Sys2Proof.Machine

/-! The byte space and the command table (20_memory.md): what a buffer access reads and leaves, the frame
between two transmissions, and that a busy core does not see the host's requests. -/

namespace Sys2Proof.Machine

/-! ### Buffer accesses (20_memory.md R39) -/

@[simp] theorem bufMem_setBufMem_same (buf : Buf) (m : Memory) (s : State) :
    bufMem buf (setBufMem buf m s) = m := by
  cases buf <;> rfl

theorem bufMem_setBufMem_other {buf other : Buf} (h : other ≠ buf) (m : Memory) (s : State) :
    bufMem other (setBufMem buf m s) = bufMem other s := by
  cases buf <;> cases other
  case pay.pay | frame.frame => exact absurd rfl h
  all_goals rfl

/-- `MemRead` answers exactly the bytes of a range inside the buffer. -/
theorem memRead_eq_ok_iff {buf : Buf} {a n : Nat} {s : State} {bytes : List Byte} :
    memRead buf a n s = .ok bytes ↔
      a + n ≤ bufSize buf ∧ Memory.readBytes (bufMem buf s) a n = some bytes :=
  ⟨memRead_eq_ok, fun ⟨hb, h⟩ => memRead_ok hb h⟩

/-- Settles O33: the read law is the byte list of the range, the write law is read-after-write in the written
buffer, and no fault of the driver is an access outside a buffer. -/
theorem bufferAccessesReadWhatWasWritten : Obligations.BufferAccessesReadWhatWasWritten := by
  refine ⟨rfl, rfl, fun s buf a n bytes => ?_, fun s buf other a bytes hb => ?_, fun s b hf => ?_⟩
  · rw [memRead_eq_ok_iff, readBytes_eq_some]
  · have hread : Memory.readBytes (Memory.writeBytes (bufMem buf s) a bytes) a bytes.length = some bytes :=
      readBytes_writeBytes bytes _ a
    refine ⟨_, memWrite_ok hb, memRead_ok hb ?_, ?_, fun x hx => ?_, fun ho => ?_, fun hwf => ?_⟩
    · rw [bufMem_setBufMem_same, hread]
    · rw [bufMem_setBufMem_same]
      exact (readBytes_eq_some.mp hread).2
    · rw [bufMem_setBufMem_same]
      exact readByte_writeBytes_outside bytes _ hx
    · exact bufMem_setBufMem_other ho _ s
    · rw [bufMem_setBufMem_same]
      exact wf_writeBytes bytes _ a hwf
  · obtain ⟨-, -, hd⟩ := step_fault hf
    cases hd

/-! ### The frame between two transmissions (20_memory.md R49) -/

/-- An exception leads to the teardown or to `IDLE`. -/
theorem raise_phase_ne_tx (e : Exception) (s : State) : (raise e s).phase ≠ .tx := by
  rcases raise_cases e s with ⟨-, hr⟩ | ⟨-, hr⟩ <;> simp [hr]

/-- A transmission after which another one follows was answered ok. -/
theorem transmitted_frame_of_tx {r : RadioAnswer} {s : State} (h : (transmitted r s).phase = .tx) :
    (transmitted r s).frame = s.frame := by
  cases r with
  | ok => rfl
  | fail => exact absurd h (raise_phase_ne_tx _ s)

/-- From TX to TX the driver waits or transmits, and stores nothing in `FRAME`. -/
theorem DriverStep.frame_of_tx {s t : State} (h : DriverStep s t) (hs : s.phase = .tx)
    (ht : t.phase = .tx) : t.frame = s.frame := by
  cases h with
  | waits => rfl
  | sent => exact transmitted_frame_of_tx ht
  | configured hr | configFailed hr =>
    obtain ⟨-, -, -, -, htx, -⟩ := configRow_phases hr
    exact absurd hs htx
  | passed hp | rejected hp | built hp | framed hp | idled hp | cleaned hp => simp [hp] at hs

/-- The call of TX carries the ten bytes of `FRAME` (20_memory.md R48). -/
theorem phaseCall_tx {s : State} (h : s.phase = .tx) :
    phaseCall s = (Memory.readBytes s.frame 0 10).map .transmitRaw := by
  simp [phaseCall, h]

/-- Settles O36: `FRAME` is kept from TX to TX, and the call of TX is a function of it. -/
theorem everyTransmissionCarriesTheSameFrame : Obligations.EveryTransmissionCarriesTheSameFrame := by
  intro i s t hs h ht
  obtain ⟨-, hd⟩ := (exec_cases h).resolve_left fun hi => by simp [hs] at hi
  have hframe : t.frame = s.frame := hd.frame_of_tx hs ht
  exact ⟨hframe, by rw [phaseCall_tx hs, phaseCall_tx ht, hframe]⟩

/-! ### The host's inputs and a busy core (20_memory.md R53) -/

section hostWrite
variable (w : HostWrite)

theorem recordCause_hostWrite (e : Exception) (s : State) :
    recordCause e (hostWrite w s) = hostWrite w (recordCause e s) := by
  rcases recordCause_cases e s with ⟨hz, hr⟩ | ⟨hn, hr⟩
  · rw [hr, recordCause_of_zero e (by simpa using hz)]
    cases w <;> rfl
  · rw [hr, recordCause_of_ne e (by simpa using hn)]

theorem raise_hostWrite (e : Exception) (s : State) :
    raise e (hostWrite w s) = hostWrite w (raise e s) := by
  rcases raise_cases e s with ⟨hh, hr⟩ | ⟨hh, hr⟩
  · rw [hr, raise_of_held e (by simpa using hh), recordCause_hostWrite]
    cases w <;> rfl
  · rw [hr, raise_of_not_held e (by simpa using hh), recordCause_hostWrite]
    cases w <;> rfl

theorem recordTeardown_hostWrite (k : BitVec 4) (r : RadioAnswer) (s : State) :
    recordTeardown k r (hostWrite w s) = hostWrite w (recordTeardown k r s) := by
  cases r with
  | ok => rfl
  | fail => exact recordCause_hostWrite w _ s

theorem transmitted_hostWrite (r : RadioAnswer) (s : State) :
    transmitted r (hostWrite w s) = hostWrite w (transmitted r s) := by
  cases r with
  | ok => cases w <;> rfl
  | fail =>
    simp only [transmitted, hostWrite_rep]
    exact raise_hostWrite w _ s

theorem built_hostWrite (a b c : Nibble) (s : State) :
    built a b c (hostWrite w s) = hostWrite w (built a b c s) := by
  cases w <;> rfl

theorem framed_hostWrite (payload : List Byte) (s : State) :
    framed payload (hostWrite w s) = hostWrite w (framed payload s) := by
  cases w <;> rfl

theorem configRow_hostWrite (s : State) : configRow (hostWrite w s) = configRow s := by
  cases w <;> rfl

/-- A radio call does not see the host's inputs, where what follows its answer does not. -/
theorem radioCall_hostWrite {op : RadioOp} {s t : State} {k : RadioAnswer → State → State}
    (hk : ∀ r u, k r (hostWrite w u) = hostWrite w (k r u)) (h : radioCall op s k = .next t) :
    radioCall op (hostWrite w s) k = .next (hostWrite w t) := by
  rcases radioCall_next h with ⟨ha, rfl⟩ | ⟨r, rs, ha, rfl⟩
  · rw [radioCall_nil k (by simpa using ha)]
    cases w <;> rfl
  · rw [radioCall_cons k (by simpa using ha), ← hk]
    cases w <;> rfl

/-- The six configuration phases, from their common shape. -/
theorem advance_configRow_hostWrite {s t : State} {op : RadioOp} {k : BitVec 4} {p : Phase}
    (hr : configRow s = some (op, k, p)) (h : advance s = .next t) :
    advance (hostWrite w s) = .next (hostWrite w t) := by
  rw [advance_configRow hr] at h
  rw [advance_configRow ((configRow_hostWrite w s).trans hr)]
  refine radioCall_hostWrite w (fun r u => ?_) h
  cases r with
  | ok => cases w <;> rfl
  | fail => exact raise_hostWrite w _ u

/-- The sequencer takes the same step whatever the host asserts or presents, and leaves it there. -/
theorem advance_hostWrite {s t : State} (h : advance s = .next t) :
    advance (hostWrite w s) = .next (hostWrite w t) := by
  have hphase : (hostWrite w s).phase = s.phase := hostWrite_phase w s
  cases hp : s.phase with
  | idle =>
    rw [advance_idle hp] at h
    cases h
    exact advance_idle (hphase.trans hp)
  | decode =>
    rw [advance_decode hp] at h
    rw [advance_decode (hphase.trans hp)]
    obtain ⟨c, hc, ⟨hv, rfl⟩ | ⟨hv, rfl⟩⟩ := stepDecode_next h
    · rw [stepDecode_valid (c := c) (by simpa using hc) (by simpa using hv)]
      cases w <;> rfl
    · rw [stepDecode_illegal (c := c) (by simpa using hc) (by simpa using hv), raise_hostWrite]
  | build =>
    rw [advance_build hp] at h
    rw [advance_build (hphase.trans hp)]
    obtain ⟨a, b, c, ha, hb, hc, rfl⟩ := stepBuild_next h
    rw [stepBuild_eq (a := a) (b := b) (c := c) (by simpa using ha) (by simpa using hb)
      (by simpa using hc), built_hostWrite]
  | cfgFreq =>
    obtain ⟨b, hb, -⟩ := stepCfgFreq_next ((advance_cfgFreq hp).symm.trans h)
    exact advance_configRow_hostWrite w (by simp only [configRow, hp, hb, Option.map_some]; rfl) h
  | cfgPower | cfgMod | cfgRate | cfgLen | cfgSync =>
    exact advance_configRow_hostWrite w (by simp only [configRow, hp]; rfl) h
  | frame =>
    rw [advance_frame hp] at h
    rw [advance_frame (hphase.trans hp)]
    obtain ⟨payload, hm, rfl⟩ := stepFrame_next h
    rw [stepFrame_eq (payload := payload) (by simpa using hm), framed_hostWrite]
  | tx =>
    rw [advance_tx hp] at h
    rw [advance_tx (hphase.trans hp)]
    obtain ⟨hr, bytes, hm, h⟩ := stepTx_next h
    rw [stepTx_eq (bytes := bytes) (by simpa using hr) (by simpa using hm)]
    exact radioCall_hostWrite w (transmitted_hostWrite w) h
  | tdIdle =>
    rw [advance_tdIdle hp] at h
    rw [advance_tdIdle (hphase.trans hp)]
    refine radioCall_hostWrite w (fun r u => ?_) h
    rw [recordTeardown_hostWrite]
    cases w <;> rfl
  | tdCleanup =>
    rw [advance_tdCleanup hp] at h
    rw [advance_tdCleanup (hphase.trans hp)]
    refine radioCall_hostWrite w (fun r u => ?_) h
    rw [recordTeardown_hostWrite]
    cases w <;> rfl

end hostWrite

/-- Settles O38: a step of a busy core is a step of the sequencer, which does not see the host's inputs. -/
theorem presentedRequestsAreNotSeenWhileBusy : Obligations.PresentedRequestsAreNotSeenWhileBusy := by
  intro s t ws hb hr h
  have hadv : advance s = .next t := (step_busy hr hb).symm.trans h
  calc step { s with requests := ws }
      = advance (hostWrite (.request ws) s) := step_busy hr hb
    _ = .next { t with requests := ws } := advance_hostWrite (.request ws) hadv

/-! ### The command table (20_memory.md R38) -/

/-- Settles O4: the two valid sets over all sixteen codes, and the seven rows, are closed finite facts about
`cmdTable`. -/
theorem commandTableMatchesTheSource : Obligations.CommandTableMatchesTheSource := by
  refine ⟨?singleSet, ?dualSet, ?chipsOfValue, ?rows⟩
  case singleSet => decide
  case dualSet => decide
  case chipsOfValue => decide
  case rows => rfl

end Sys2Proof.Machine

/-! The formats and the decoder (30_encoding.md): a request word and its command, the symbol pattern of a
packet, and the bytes of the payload. -/

namespace Sys2Proof

/-! ### The request word (30_encoding.md R64 to R75) -/

/-- The decoder undoes the encoder on every command of the profile. -/
theorem decode_encode (p : Profile) (i : Instr) (h : i.wf p = true) : decode p (encode i) = .ok i := by
  simp only [decode, encode, reqHp_packReq, reqSw8_packReq, reqSw9_packReq, reqCmd_packReq]
  cases i with
  | off | slow | medium | fast => rfl
  | light =>
    obtain rfl : p = .single := eq_of_beq h
    rfl
  | light1 | light2 =>
    obtain rfl : p = .dual := eq_of_beq h
    rfl

end Sys2Proof

namespace Sys2Proof.Machine

/-- Settles O1: the fields of the request word are the command's own, and they select its row. -/
theorem decodeOfEncodeIsTheCommand : Obligations.DecodeOfEncodeIsTheCommand := decode_encode

/-- Settles O2: the decoder's two cases, and DECODE tests the same condition on the latched `CMD`. -/
theorem decodeIsTotalAndExact : Obligations.DecodeIsTotalAndExact := by
  refine fun p w => ⟨decode_valid, decode_invalid, fun i s hphase hprofile hcmd => ?_⟩
  subst hprofile
  have hexec : exec i s = stepDecode s := by
    rw [exec_busy i (by simp [hphase]), advance_decode hphase]
  cases hv : validCmd s.cfg.profile (reqCmd w) with
  | true =>
    obtain ⟨j, hj, -⟩ := decode_valid hv
    rw [hexec, stepDecode_valid hcmd hv, hj]
  | false => rw [hexec, stepDecode_illegal hcmd hv, decode_invalid hv]

/-- Settles O3: each printed word is the encoding of its command, or its `CMD` is not valid. -/
theorem wordsOfTheSpecDecode : Obligations.WordsOfTheSpecDecode :=
  ⟨decode_encode .single (.off false 0b0000#4 0b0011#4) rfl,
    decode_encode .dual (.off true 0b0000#4 0b0011#4) rfl,
    decode_encode .single (.fast true 0b1111#4 0b0000#4) rfl,
    decode_encode .dual (.light2 true 0b0110#4 0b1001#4) rfl,
    decode_invalid rfl,
    decode_encode .dual (.slow false 0b1010#4 0b0101#4) rfl,
    decode_encode .single (.medium false 0b0000#4 0b0011#4) rfl,
    decode_encode .single (.light false 0b0000#4 0b0011#4) rfl,
    decode_encode .dual (.light1 false 0b0000#4 0b0011#4) rfl,
    decode_invalid rfl,
    decode_invalid rfl⟩

/-! ### The symbols of a packet (30_encoding.md R59, R60, R71) -/

/-- The logical bits of a nibble in the order of their symbols. -/
def nibbleBits (v : Nibble) : List Bool := [v.getLsbD 3, v.getLsbD 2, v.getLsbD 1, v.getLsbD 0]

/-- The thirteen logical bits of a packet, the preamble's first. -/
def packetBits (a b c : Nibble) : List Bool := false :: (nibbleBits a ++ nibbleBits b ++ nibbleBits c)

theorem peChips_eq_flatMap (a b c : Nibble) : peChips a b c = (packetBits a b c).flatMap seEncBit := rfl

/-- The symbol of bit `k` stands at chips `3k`, `3k+1`, `3k+2`, and the last two are fixed. -/
theorem getElem?_flatMap_seEncBit {bits : List Bool} {k : Nat} (h : k < bits.length) :
    (bits.flatMap seEncBit)[3 * k]? = some bits[k] ∧
      (bits.flatMap seEncBit)[3 * k + 1]? = some true ∧
      (bits.flatMap seEncBit)[3 * k + 2]? = some false := by
  induction bits generalizing k with
  | nil => cases h
  | cons b bits ih =>
    cases k with
    | zero => exact ⟨rfl, rfl, rfl⟩
    | succ k => exact ih (Nat.lt_of_succ_lt_succ h)

/-- Settles O9: a packet is a row of symbols, the preamble's first. -/
theorem packetHasOnlySymbolPatterns : Obligations.PacketHasOnlySymbolPatterns := by
  intro a b c k
  have hk : k.val < (packetBits a b c).length := k.isLt
  rw [peBuild_toList, peChips_eq_flatMap]
  obtain ⟨-, hmiddle, hlast⟩ := getElem?_flatMap_seEncBit hk
  exact ⟨hmiddle, hlast, rfl⟩

/-- The symbol string determines its logical bits (40_symbol_encoder.md R81). -/
theorem flatMap_seEncBit_injective : Function.Injective (List.flatMap seEncBit) := by
  intro bits
  induction bits with
  | nil =>
    intro bits' h
    cases bits' with
    | nil => rfl
    | cons => cases h
  | cons b bits ih =>
    intro bits' h
    cases bits' with
    | nil => cases h
    | cons b' bits' =>
      obtain ⟨hb, hrest⟩ : b = b' ∧ bits.flatMap seEncBit = bits'.flatMap seEncBit := by
        simpa [seEncBit] using h
      rw [hb, ih hrest]

theorem nibbleBits_injective : Function.Injective nibbleBits := by decide

theorem seEncNib_injective : Function.Injective seEncNib :=
  flatMap_seEncBit_injective.comp nibbleBits_injective

/-! ### Chip strings as numbers (00_scope.md R8) -/

theorem uint_concat (chips : List Chip) (c : Chip) : uint (chips ++ [c]) = 2 * uint chips + c.toNat := by
  simp [uint]

theorem chipToNat_injective : Function.Injective Bool.toNat := by decide

theorem uint_lt (chips : List Chip) : uint chips < 2 ^ chips.length := by
  induction chips using List.reverseRecOn with
  | nil => decide
  | append_singleton chips c ih =>
    have hc : c.toNat < 2 := c.toNat_lt
    rw [uint_concat, List.length_append, List.length_singleton, Nat.pow_succ]
    omega

/-- Chip strings of one length are numerals: equal values are equal strings. -/
theorem eq_of_uint_eq {chips chips' : List Chip} (hl : chips.length = chips'.length)
    (h : uint chips = uint chips') : chips = chips' := by
  induction chips using List.reverseRecOn generalizing chips' with
  | nil => exact (List.length_eq_zero_iff.mp hl.symm).symm
  | append_singleton chips c ih =>
    cases chips' using List.reverseRecOn with
    | nil => simp at hl
    | append_singleton chips' c' =>
      have hc : c.toNat < 2 := c.toNat_lt
      have hc' : c'.toNat < 2 := c'.toNat_lt
      rw [uint_concat, uint_concat] at h
      rw [ih (by simpa using hl) (by omega), chipToNat_injective (by omega : c.toNat = c'.toNat)]

/-- A leading chip 0 adds nothing, so the seven chips of `RAW7` count as a byte. -/
theorem uint_cons_false (chips : List Chip) : uint (false :: chips) = uint chips := rfl

/-- Eight chips as the sum of their weights. -/
theorem uint_eight (c7 c6 c5 c4 c3 c2 c1 c0 : Chip) : uint [c7, c6, c5, c4, c3, c2, c1, c0] =
    128 * c7.toNat + 64 * c6.toNat + 32 * c5.toNat + 16 * c4.toNat + 8 * c3.toNat + 4 * c2.toNat +
      2 * c1.toNat + c0.toNat := by
  simp only [uint, List.foldl]
  omega

/-! ### The payload (30_encoding.md R62, R76; 41_packet_encoder.md R86 to R89) -/

theorem length_peChunk (s : List Chip) (k : Nat) : (peChunk s k).length = min 8 (s.length - 8 * k) := by
  simp [peChunk]

/-- A chunk of at most eight chips is a byte without loss. -/
theorem toNat_peChunk (s : List Chip) (k : Nat) :
    (BitVec.ofNat 8 (uint (peChunk s k))).toNat = uint (peChunk s k) := by
  refine Nat.mod_eq_of_lt ((uint_lt _).trans_le (Nat.pow_le_pow_right (by decide) ?_))
  rw [length_peChunk]
  exact Nat.min_le_left _ _

/-- The payload's bytes are the numbers of the five chunks. -/
theorem toNat_pePack (p : PadPolicy) (s : Vector Chip 39) :
    (pePack p s).map BitVec.toNat = [0, 1, 2, 3, 4].map fun k => uint (peChunk (pePad p s.toList) k) := by
  simp only [pePack, List.map_map, Function.comp_def, toNat_peChunk]

/-- Five chunks make up a string of at most forty chips. -/
theorem flatMap_peChunk {s : List Chip} (h : s.length ≤ 40) : [0, 1, 2, 3, 4].flatMap (peChunk s) = s := by
  have hsplit (k : Nat) : peChunk s k ++ s.drop (8 * (k + 1)) = s.drop (8 * k) := by
    rw [peChunk, Nat.mul_succ, ← List.drop_drop, List.take_append_drop]
  calc [0, 1, 2, 3, 4].flatMap (peChunk s)
      = peChunk s 0 ++ (peChunk s 1 ++ (peChunk s 2 ++ (peChunk s 3 ++ (peChunk s 4 ++ s.drop 40)))) := by
        simp [List.drop_of_length_le h]
    _ = s := by rw [hsplit 4, hsplit 3, hsplit 2, hsplit 1, hsplit 0]; rfl

theorem length_pePad_le (p : PadPolicy) (s : Vector Chip 39) : (pePad p s.toList).length ≤ 40 := by
  cases p <;> simp [pePad]

theorem pePad_injective (p : PadPolicy) : Function.Injective (pePad p) := by
  cases p with
  | zeroPad => exact List.append_left_injective _
  | raw7 => exact Function.injective_id

/-- Under either policy no chip is lost in the payload. -/
theorem pePack_injective (p : PadPolicy) : Function.Injective (pePack p) := by
  intro s s' h
  have hlen : (pePad p s.toList).length = (pePad p s'.toList).length := by cases p <;> simp [pePad]
  have hchunk : ∀ k ∈ [0, 1, 2, 3, 4], peChunk (pePad p s.toList) k = peChunk (pePad p s'.toList) k := by
    have hbytes := congrArg (List.map BitVec.toNat) h
    rw [toNat_pePack, toNat_pePack] at hbytes
    exact fun k hk => eq_of_uint_eq (by rw [length_peChunk, length_peChunk, hlen])
      (List.map_inj_left.mp hbytes k hk)
  refine Vector.toList_inj.mp (pePad_injective p ?_)
  calc pePad p s.toList
      = [0, 1, 2, 3, 4].flatMap (peChunk (pePad p s.toList)) :=
        (flatMap_peChunk (length_pePad_le p s)).symm
    _ = [0, 1, 2, 3, 4].flatMap (peChunk (pePad p s'.toList)) := List.flatMap_congr hchunk
    _ = pePad p s'.toList := flatMap_peChunk (length_pePad_le p s')

/-- The packet determines the switch settings and the command. -/
theorem peBuild_injective {a b c a' b' c' : Nibble} (h : peBuild a b c = peBuild a' b' c') :
    a = a' ∧ b = b' ∧ c = c' := by
  have hchips : peChips a b c = peChips a' b' c' := congrArg Vector.toList h
  obtain ⟨habc, hc⟩ := List.append_inj hchips rfl
  obtain ⟨hab, hb⟩ := List.append_inj habc rfl
  obtain ⟨-, ha⟩ := List.append_inj hab rfl
  exact ⟨seEncNib_injective ha, seEncNib_injective hb, seEncNib_injective hc⟩

/-- Settles O12: the payload determines the packet, and the packet its nibbles. -/
theorem payloadDeterminesTheRequestFields : Obligations.PayloadDeterminesTheRequestFields :=
  fun p _ _ _ _ _ _ h => peBuild_injective (pePack_injective p h)

/-- The chunk rule: 32 chips of the packet in four bytes, the tail of seven as the policy pads it. -/
theorem toNat_peEncode (p : PadPolicy) (a b c : Nibble) : (peEncode p a b c).map BitVec.toNat =
    [uint ((peChips a b c).take 8), uint (((peChips a b c).drop 8).take 8),
     uint (((peChips a b c).drop 16).take 8), uint (((peChips a b c).drop 24).take 8),
     uint (pePad p ((peChips a b c).drop 32))] := by
  rw [peEncode, toNat_pePack]
  cases p <;> rfl

/-- The rows of the bit table, chunk by chunk. -/
theorem uint_peChips (a b c : Nibble) :
    let n (v : Nibble) (k : Nat) : Nat := (v.getLsbD k).toNat
    uint ((peChips a b c).take 8) = 0x49 + 16 * n a 3 + 2 * n a 2 ∧
    uint (((peChips a b c).drop 8).take 8) = 0x24 + 64 * n a 1 + 8 * n a 0 + n b 3 ∧
    uint (((peChips a b c).drop 16).take 8) = 0x92 + 32 * n b 2 + 4 * n b 1 ∧
    uint (((peChips a b c).drop 24).take 8) = 0x49 + 128 * n b 0 + 16 * n c 3 + 2 * n c 2 ∧
    uint (pePad .zeroPad ((peChips a b c).drop 32)) = 0x24 + 64 * n c 1 + 8 * n c 0 ∧
    uint (pePad .raw7 ((peChips a b c).drop 32)) = 0x12 + 32 * n c 1 + 4 * n c 0 := by
  refine ⟨(uint_eight false true false _ true false _ true).trans ?_,
    (uint_eight false _ true false _ true false _).trans ?_,
    (uint_eight true false _ true false _ true false).trans ?_,
    (uint_eight _ true false _ true false _ true).trans ?_,
    (uint_eight false _ true false _ true false false).trans ?_,
    (uint_cons_false _).symm.trans ((uint_eight false false _ true false _ true false).trans ?_)⟩
  all_goals
    simp only [Bool.toNat_true, Bool.toNat_false]
    omega

/-- Settles O10: the chunk rule, and the value of each chunk in it. -/
theorem payloadFollowsTheBitTable : Obligations.PayloadFollowsTheBitTable := by
  intro a b c chips n
  obtain ⟨h0, h1, h2, h3, hpadded, hraw⟩ := uint_peChips a b c
  refine ⟨fun p => ?_, ?_, ?_⟩
  · cases p <;> exact toNat_peEncode _ a b c
  · rw [toNat_peEncode, h0, h1, h2, h3, hpadded]
  · rw [toNat_peEncode, h0, h1, h2, h3, hraw]

end Sys2Proof.Machine

/-! The SymbolEncoder (40_symbol_encoder.md): the two symbols, and a nibble as a row of four of them. -/

namespace Sys2Proof.Machine

/-! ### The symbols of a nibble (40_symbol_encoder.md R78, R79, R81) -/

theorem seEncNib_eq_flatMap (v : Nibble) : seEncNib v = (nibbleBits v).flatMap seEncBit := rfl

/-- The nibble's bits stand in their symbols' order, from the most significant down. -/
theorem getElem_nibbleBits (v : Nibble) (k : Fin 4) : (nibbleBits v)[k.val]'k.isLt = v.getMsbD k.val := by
  fin_cases k <;> rfl

/-- The three chips of symbol `k` of a nibble: the logical bit, and the fixed `1` and `0`. -/
theorem getElem?_seEncNib (v : Nibble) (k : Fin 4) :
    (seEncNib v)[3 * k.val]? = some (v.getMsbD k.val) ∧
      (seEncNib v)[3 * k.val + 1]? = some true ∧ (seEncNib v)[3 * k.val + 2]? = some false := by
  rw [seEncNib_eq_flatMap, ← getElem_nibbleBits]
  exact getElem?_flatMap_seEncBit k.isLt

/-- A further symbol moves the number three places up and adds the symbol's own. -/
theorem uint_append_seEncBit (chips : List Chip) (b : Bool) :
    uint (chips ++ seEncBit b) = 8 * uint chips + (4 * b.toNat + 2) := by
  have hchips : chips ++ seEncBit b = chips ++ [b] ++ [true] ++ [false] := by simp [seEncBit]
  rw [hchips, uint_concat, uint_concat, uint_concat, Bool.toNat_true, Bool.toNat_false]
  omega

/-- The number the twelve chips spell, leftmost chip most significant. -/
theorem uint_seEncNib (v : Nibble) :
    uint (seEncNib v) = 0x492 + 0x800 * (v.getLsbD 3).toNat + 0x100 * (v.getLsbD 2).toNat +
      0x020 * (v.getLsbD 1).toNat + 0x004 * (v.getLsbD 0).toNat := by
  have hfirst : uint (seEncBit (v.getLsbD 3)) = 4 * (v.getLsbD 3).toNat + 2 :=
    (uint_append_seEncBit [] _).trans (Nat.zero_add _)
  rw [seEncNib, uint_append_seEncBit, uint_append_seEncBit, uint_append_seEncBit, hfirst]
  omega

/-- A symbol begins with its logical bit. -/
theorem seEncBit_injective : Function.Injective seEncBit := fun _ _ h => List.head_eq_of_cons_eq h

/-- Settles O5: the symbol of each of the two logical bits. -/
theorem symbolOfALogicalBit : Obligations.SymbolOfALogicalBit := ⟨rfl, rfl⟩

/-- Settles O6: the fixed chips from the symbols' places, the number symbol by symbol. -/
theorem nibbleExpandsToTwelveChips : Obligations.NibbleExpandsToTwelveChips :=
  fun v => ⟨rfl, rfl, fun k => (getElem?_seEncNib v k).2, uint_seEncNib v⟩

/-- Settles O7: the symbols are the two of R78, and the first chip of each is its logical bit. -/
theorem symbolEncodingIsInvertible : Obligations.SymbolEncodingIsInvertible := by
  refine ⟨fun b => ?_, fun _ _ h => seEncBit_injective h, fun _ _ h => seEncNib_injective h,
    fun v k => (getElem?_seEncNib v k).1⟩
  obtain ⟨hzero, hone⟩ := symbolOfALogicalBit
  cases b with
  | false => exact .inl hzero
  | true => exact .inr hone

end Sys2Proof.Machine

/-! The PacketEncoder (41_packet_encoder.md): the packet's parts, and the last byte of the payload under the two
pad policies. -/

namespace Sys2Proof.Machine

/-! ### The last byte of the payload (41_packet_encoder.md R86, R88, R89, R91) -/

/-- Every packet ends in a chip 0, that of its last symbol, so the number of its last seven chips is even. -/
theorem two_dvd_uint_tail (a b c : Nibble) : 2 ∣ uint ((peChips a b c).drop 32) := by
  have htail : (peChips a b c).drop 32 = ((peChips a b c).drop 32).take 6 ++ [false] := rfl
  rw [htail, uint_concat]
  exact Dvd.intro _ rfl

/-- `ZERO_PAD` appends its chip 0 to the tail and so doubles its number. -/
theorem uint_pePad_zeroPad (s : List Chip) : uint (pePad .zeroPad s) = 2 * uint (pePad .raw7 s) :=
  uint_concat s false

/-- The seven chips of the tail leave bit 7 of a byte free. -/
theorem uint_tail_lt (a b c : Nibble) : uint (pePad .raw7 ((peChips a b c).drop 32)) < 2 ^ 7 :=
  uint_lt ((peChips a b c).drop 32)

/-- Byte 4 of the payload is the tail of the packet, as the policy pads it. -/
theorem getElem?_peEncode_four (p : PadPolicy) (a b c : Nibble) :
    ∃ y, (peEncode p a b c)[4]? = some y ∧ y.toNat = uint (pePad p ((peChips a b c).drop 32)) := by
  rw [← Option.map_eq_some_iff, ← List.getElem?_map, toNat_peEncode]
  rfl

/-- The first four bytes are chunks of the packet itself, which the policy does not touch. -/
theorem take_four_peEncode (p p' : PadPolicy) (a b c : Nibble) :
    (peEncode p a b c).take 4 = (peEncode p' a b c).take 4 := by
  refine List.map_injective_iff.mpr (fun _ _ => BitVec.eq_of_toNat_eq) ?_
  rw [List.map_take, List.map_take, toNat_peEncode, toNat_peEncode]
  rfl

/-- Settles O11: byte 4 is the tail of the packet, an even number of seven bits, which `ZERO_PAD` doubles. -/
theorem padPolicyChangesTheLastByteOnly : Obligations.PadPolicyChangesTheLastByteOnly := by
  refine fun a b c => ⟨fun p => peEncode_length p a b c, take_four_peEncode _ _ a b c, ?_⟩
  obtain ⟨z, hz, hzval⟩ := getElem?_peEncode_four .zeroPad a b c
  obtain ⟨r, hr, hrval⟩ := getElem?_peEncode_four .raw7 a b c
  have hdouble : z.toNat = 2 * r.toNat := by rw [hzval, hrval, uint_pePad_zeroPad]
  have heven : 2 ∣ r.toNat := hrval ▸ two_dvd_uint_tail a b c
  have hlt : r.toNat < 2 ^ 7 := hrval ▸ uint_tail_lt a b c
  refine ⟨z, r, hz, hr, hdouble, BitVec.eq_of_toNat_eq ?_, Nat.testBit_lt_two_pow hlt⟩
  rw [BitVec.extractLsb'_toNat, Nat.shiftRight_zero, hdouble]
  exact Nat.mod_eq_zero_of_dvd (Nat.mul_dvd_mul_left 2 heven)

/-! ### The packet (41_packet_encoder.md R85) -/

/-- Settles O8: the preamble is the symbol of logical 0, and chips 37 and 38 close the packet's thirteenth
symbol. -/
theorem packetIsPreambleSwitchesCommand : Obligations.PacketIsPreambleSwitchesCommand := by
  intro a b c
  obtain ⟨hzero, -⟩ := symbolOfALogicalBit
  obtain ⟨hmiddle, hlast, -⟩ := packetHasOnlySymbolPatterns a b c 12
  refine ⟨?parts, Vector.length_toList, hmiddle, hlast⟩
  case parts => rw [peBuild_toList, peChips, hzero]

end Sys2Proof.Machine

/-! The single steps of the TransmissionDriver (42_transmission_driver.md R97 to R111), each as the exact next
state of every command, and the machine's step as the command it runs. -/

namespace Sys2Proof.Machine

/-! ### Hand-over, check and packet (42_transmission_driver.md R97 to R99) -/

/-- While busy every command takes the step of the phase. -/
theorem exec_at {i : Instr} {s : State} {p : Phase} (hp : s.phase = p) (hb : p ≠ .idle) :
    exec i s = advance s := exec_busy i (hp ▸ hb)

/-- Settles O15: an idle core accepts command and word alike, and a busy core takes the driver's step whatever is
presented. -/
theorem acceptLoadsTheRequest : Obligations.AcceptLoadsTheRequest :=
  ⟨fun i _ hp => exec_idle i hp, fun w _ hp => runWord_idle w hp,
    fun i j _ hb => (exec_busy i hb).trans (exec_busy j hb).symm⟩

/-- Settles O16: with no teardown owed and no cause recorded the exception completes at once with its own code. -/
theorem decodePassesOrRejects : Obligations.DecodePassesOrRejects := by
  intro i s c hp hc
  rw [exec_at hp (by decide), advance_decode hp]
  refine ⟨stepDecode_valid hc, fun hv hheld hcause => ?_⟩
  rw [stepDecode_illegal hc hv, raise_of_not_held _ hheld, recordCause_of_zero _ hcause]
  rfl

/-- Settles O17: `PAY` takes the five bytes of the payload from address 0 on. -/
theorem buildStoresPacketAndPayload : Obligations.BuildStoresPacketAndPayload := by
  intro i s a b c hp ha hb hc
  refine ⟨Memory.writeBytes s.pay 0 (peEncode s.cfg.padPolicy a b c), ?next, ?payload, ?others⟩
  case next => rw [exec_at hp (by decide), advance_build hp, stepBuild_eq ha hb hc]; rfl
  case payload => exact readBytes_writeBytes (peEncode s.cfg.padPolicy a b c) s.pay 0
  case others => exact fun x hx => readByte_writeBytes_outside _ _ (.inr (by simpa using hx))

/-! ### Radio configuration (42_transmission_driver.md R100 to R105) -/

section rows
variable {s : State}

theorem configRow_cfgFreq {hp : Bool} (h : s.phase = .cfgFreq) (hhp : s.hp = some hp) :
    configRow s = some (.setFrequency s.cfg.freqHz, 0#4, if hp then .cfgPower else .cfgMod) := by
  simp [configRow, h, hhp]

theorem configRow_cfgPower (h : s.phase = .cfgPower) : configRow s = some (.setMaxPower, 1#4, .cfgMod) := by
  simp [configRow, h]

theorem configRow_cfgMod (h : s.phase = .cfgMod) :
    configRow s = some (.setModulation .amOnOffKeying, 2#4, .cfgRate) := by
  simp [configRow, h]

theorem configRow_cfgRate (h : s.phase = .cfgRate) : configRow s = some (.setDataRate 2400, 3#4, .cfgLen) := by
  simp [configRow, h]

theorem configRow_cfgLen (h : s.phase = .cfgLen) :
    configRow s = some (.setFixedFrameLength 10, 4#4, .cfgSync) := by
  simp [configRow, h]

theorem configRow_cfgSync (h : s.phase = .cfgSync) : configRow s = some (.setSyncMode .none, 5#4, .frame) := by
  simp [configRow, h]

end rows

/-- A configuration phase executes the step of its row, whatever the command. -/
theorem exec_configRow {i : Instr} {s : State} {op : RadioOp} {k : BitVec 4} {p : Phase}
    (h : configRow s = some (op, k, p)) : exec i s = configStep op k p s := by
  obtain ⟨hb, -⟩ := configRow_phases h
  rw [exec_busy i hb, advance_configRow h]

/-- Settles O18: CFG_FREQ is the configuration step whose successor `HP` selects. -/
theorem cfgFreqTunesTheRadio : Obligations.CfgFreqTunesTheRadio := by
  intro i s hp rs hphase hhp
  rw [exec_configRow (i := i) (configRow_cfgFreq hphase hhp)]
  exact ⟨configStep_ok _ _, configStep_fail _ _⟩

/-- Settles O19: each line of the list is the configuration row of its phase. -/
theorem configurationStepsMakeTheirCalls : Obligations.ConfigurationStepsMakeTheirCalls := by
  intro i s rs op index following hrow
  have hrow : configRow s = some (op, index, following) := by
    simp only [List.mem_cons, Prod.mk.injEq, List.not_mem_nil, or_false] at hrow
    obtain ⟨hp, rfl, rfl, rfl⟩ | ⟨hp, rfl, rfl, rfl⟩ | ⟨hp, rfl, rfl, rfl⟩ | ⟨hp, rfl, rfl, rfl⟩ |
      ⟨hp, rfl, rfl, rfl⟩ := hrow
    · exact configRow_cfgPower hp
    · exact configRow_cfgMod hp
    · exact configRow_cfgRate hp
    · exact configRow_cfgLen hp
    · exact configRow_cfgSync hp
  rw [exec_configRow (i := i) hrow]
  exact ⟨configStep_ok _ _, configStep_fail _ _⟩

/-! ### Framing and transmission (42_transmission_driver.md R106, R107) -/

/-- FRAME leaves the ten bytes of spacer and payload in `FRAME`. -/
theorem readBytes_framed {s : State} {payload : List Byte} (hl : payload.length = 5) :
    Memory.readBytes (framed payload s).frame 0 10 = some (spacer ++ payload) := by
  obtain ⟨hspacer, hpayload⟩ := readBytes_spacer_payload s.frame hl
  exact readBytes_append hspacer hpayload

/-- Settles O20: spacer and payload read back as one range, and FRAME keeps what lies outside it. -/
theorem framePrependsTheSpacer : Obligations.FramePrependsTheSpacer := by
  intro i s payload hp hm
  have hl := readBytes_length hm
  refine ⟨(framed payload s).frame, ?next, readBytes_framed hl, fun x hx => ?others⟩
  case next => rw [exec_at hp (by decide), advance_frame hp, stepFrame_eq hm]; rfl
  case others => exact (keeps_framed hp hl).frame x fun _ => hx

/-- Settles O21: the answer to the one call of TX decides between counting and raising. -/
theorem txSendsTheFrame : Obligations.TxSendsTheFrame := by
  intro i s bytes rs hp hr hm
  rw [exec_at hp (by decide), advance_tx hp, stepTx_eq hr hm]
  exact ⟨radioCall_cons transmitted, radioCall_cons transmitted⟩

/-! ### Teardown (42_transmission_driver.md R109 to R111) -/

/-- The state TD_IDLE leaves with its call answered `r`. -/
def idled (r : RadioAnswer) (rs : List RadioAnswer) (s : State) : State :=
  { recordTeardown 0#4 r (answered .setIdle r rs s) with phase := .tdCleanup }

theorem advance_tdIdle_cons {s : State} {r : RadioAnswer} {rs : List RadioAnswer} (hp : s.phase = .tdIdle)
    (ha : s.answers = r :: rs) : advance s = .next (idled r rs s) := by
  rw [advance_tdIdle hp]
  exact radioCall_cons _ ha

/-- The state TD_CLEANUP leaves with its call answered `r`. -/
def cleaned (r : RadioAnswer) (rs : List RadioAnswer) (s : State) : State :=
  complete (recordTeardown 1#4 r (answered .cleanup r rs s)).cause
    (recordTeardown 1#4 r (answered .cleanup r rs s))

theorem advance_tdCleanup_cons {s : State} {r : RadioAnswer} {rs : List RadioAnswer}
    (hp : s.phase = .tdCleanup) (ha : s.answers = r :: rs) : advance s = .next (cleaned r rs s) := by
  rw [advance_tdCleanup hp]
  exact radioCall_cons _ ha

/-- Settles O22: what a teardown answer can do is `recordTeardown_eq`; the phase goes on in either case. -/
theorem tdIdleGoesOnToCleanup : Obligations.TdIdleGoesOnToCleanup := by
  intro i s r rs hp ha
  rw [exec_at hp (by decide), advance_tdIdle_cons hp ha, idled, recordTeardown_eq]
  rfl

/-- Settles O23: completion with the cause that the teardown answer leaves. -/
theorem tdCleanupCompletes : Obligations.TdCleanupCompletes := by
  rintro i s r rs c hp ha rfl
  rw [exec_at hp (by decide), advance_tdCleanup_cons hp ha, cleaned, recordTeardown_eq]
  rfl

/-! ### `setMaxPower` (42_transmission_driver.md R101) -/

/-- `setMaxPower` is the call of CFG_POWER and of no other phase. -/
theorem phaseCall_setMaxPower {s : State} (h : phaseCall s = some .setMaxPower) : s.phase = .cfgPower := by
  unfold phaseCall at h
  cases hp : s.phase <;> simp_all

/-- Settles O48: in CFG_POWER the latches hold `HP` 1, by the invariant of the reachable states. -/
theorem maxPowerOnlyUnderHighPower : Obligations.MaxPowerOnlyUnderHighPower := by
  intro s hs hcall
  have hp := phaseCall_setMaxPower hcall
  obtain ⟨hp', a, b, c, hlatch, -, -, -, -, -, hpower, -⟩ := hs.inv.loaded (by simp [hp])
  rw [hlatch, hpower hp]

/-! ### The machine's step (10_state.md R21, 42_transmission_driver.md R97) -/

theorem runWord_ok {s : State} {w : ReqWord} {i : Instr} (h : decode s.cfg.profile w = .ok i) :
    runWord w s = exec i s := by
  simp only [runWord, h]

/-- Settles O37: an idle core runs the word it takes from the list, command or not; on a busy core both the step and
the latched command are the driver's next step. -/
theorem stepRunsTheDecodedInstruction : Obligations.StepRunsTheDecodedInstruction := by
  refine fun s hr => ⟨fun i w ws hp hq hd => ?_, fun i w hb _ _ => ?_, fun w ws r hp hq _ => ?_, step_wait hr⟩
  · rw [step_fetch hr hp hq]
    exact runWord_ok hd
  · rw [step_busy hr hb, exec_busy i hb]
  · rw [step_fetch hr hp hq]
    exact runWord_idle w hp

end Sys2Proof.Machine

/-! A whole invocation (42_transmission_driver.md R108, R112, R115): from its end backwards, each call of the plan
either goes on with the rest of the plan or forces the teardown. -/

namespace Sys2Proof.Machine

/-! ### Several steps of the driver -/

/-- `n` steps of the driver, each of a busy core, lead from `s` to `t`. -/
inductive Advances : Nat → State → State → Prop where
  | done (s : State) : Advances 0 s s
  | step {n : Nat} {s t u : State} (hb : s.phase ≠ .idle) (h : advance s = .next t) (hu : Advances n t u) :
      Advances (n + 1) s u

/-- The driver's steps are executions of any one command. -/
theorem Advances.execTimes {n : Nat} {s t : State} (h : Advances n s t) (i : Instr) :
    execTimes i n s = .next t := by
  induction h with
  | done s => rfl
  | step hb ha _ ih => simp only [Machine.execTimes, exec_busy i hb, ha, ih]

/-- The driver's steps are steps of the machine, with no reset asserted. -/
theorem Advances.run {n : Nat} {s t : State} (h : Advances n s t) (hr : s.resetIn = false) :
    Host.Core.run Sys2Proof.core n s = .next t := by
  induction h with
  | done s => rfl
  | step hb ha _ ih =>
    obtain ⟨-, -, hreset⟩ := (advance_cases hb ha).inputs
    rw [run_succ _ ((step_busy hr hb).trans ha), ih (hreset.trans hr)]

/-! ### The end of an invocation -/

/-- The state an invocation in progress in `s` ends in, with the exception `x`, the calls `calls` still made and
`rep` transmissions answered ok (42_transmission_driver.md R111, R112). -/
def finished (x : Option Exception) (calls : List RadioCall) (rep : BitVec 4) (s : State) : State :=
  { s with
    hp := none, sw8 := none, sw9 := none, cmd := none, sym := none, pay := [], frame := []
    phase := .idle, rep := rep, busy := false, done := true, errf := causeOf x != 0#3
    cause := causeOf x, einfo := infoOf x, held := false
    trace := s.trace ++ calls, outstanding := none, answers := s.answers.drop calls.length }

/-- The end seen from a later state `t` is the end seen from `s`, which has the calls made in between to come. -/
theorem finished_of_later {s t : State} {made : List RadioCall}
    (hin : t.cfg = s.cfg ∧ t.requests = s.requests ∧ t.resetIn = s.resetIn)
    (htrace : t.trace = s.trace ++ made) (hans : t.answers = s.answers.drop made.length)
    (x : Option Exception) (calls : List RadioCall) (rep : BitVec 4) :
    finished x calls rep t = finished x (made ++ calls) rep s := by
  obtain ⟨hcfg, hreq, hres⟩ := hin
  simp [finished, hcfg, hreq, hres, htrace, hans]

/-- The exception on record is `x`. -/
def State.Records (s : State) (x : Option Exception) : Prop := s.cause = causeOf x ∧ s.einfo = infoOf x

theorem complete_eq_finished {s : State} {x : Option Exception} (hx : s.Records x) (ho : s.outstanding = none) :
    complete s.cause s = finished x [] s.rep s := by
  obtain ⟨hc, he⟩ := hx
  simp [complete, discardData, flagsCompleted, finished, hc, he, ho]

theorem Exception.code_ne_zero (e : Exception) : e.code ≠ 0#3 := by
  cases e <;> simp [Exception.code]

/-- A teardown answer adds its exception where none is on record (60_exceptions.md R127, R132). -/
theorem State.Records.recordTeardown {s : State} {x : Option Exception} (h : s.Records x) (k : BitVec 4)
    (r : RadioAnswer) :
    (recordTeardown k r s).Records (x.or (if r = .fail then some (.teardownError k) else none)) := by
  obtain ⟨hc, he⟩ := h
  rw [recordTeardown_eq]
  cases x with
  | none => cases r <;> simp_all [State.Records, causeOf, infoOf, Exception.code, Exception.info]
  | some e => simp_all [State.Records, causeOf, infoOf, e.code_ne_zero]

/-- The teardown: two calls, whatever the answers, and the invocation has ended. -/
theorem advances_teardown {s : State} {x : Option Exception} {r r' : RadioAnswer} {rs : List RadioAnswer}
    (hp : s.phase = .tdIdle) (hx : s.Records x) (ha : s.answers = r :: r' :: rs) (attempt : BitVec 4) :
    Advances 2 s (finished (x.or (firstException attempt [] s.answers)) (invocationTrace [] s.answers) s.rep s) := by
  have hidled : (idled r (r' :: rs) s).Records (x.or (if r = .fail then some (.teardownError 0#4) else none)) :=
    hx.recordTeardown (s := answered .setIdle r (r' :: rs) s) 0#4 r
  have hcleaned := hidled.recordTeardown (s := answered .cleanup r' rs (idled r (r' :: rs) s)) 1#4 r'
  have hfirst : firstException attempt [] s.answers =
      (if r = .fail then some (.teardownError 0#4) else none).or
        (if r' = .fail then some (.teardownError 1#4) else none) := by
    rw [ha]
    cases r <;> cases r' <;> rfl
  have hend : cleaned r' rs (idled r (r' :: rs) s) =
      finished (x.or (firstException attempt [] s.answers)) (invocationTrace [] s.answers) s.rep s := by
    rw [cleaned, complete_eq_finished hcleaned (by simp), Option.or_assoc, hfirst,
      finished_of_later (s := s) (made := invocationTrace [] s.answers)] <;>
      simp [idled, ha, invocationTrace]
  rw [← hend]
  exact .step (by simp [hp]) (advance_tdIdle_cons hp ha) (.step (by simp [idled])
    (advance_tdCleanup_cons rfl (by simp [idled])) (.done _))

/-! ### The plan -/

/-- The invocation in progress in `s` makes the calls of `plan` up to the first that fails, tears down and ends with
the first exception and the count of ok transmissions on record. Where no call fails it takes one step for each
call and `silent` steps without a call; it never takes more. -/
def State.Follows (s : State) (plan : List RadioOp) (silent : Nat) : Prop :=
  ∃ n rep, n ≤ plan.length + 2 + silent ∧
    (firstException (s.rep + 1#4) plan s.answers = none → n = plan.length + 2 + silent) ∧
    rep.toNat = s.rep.toNat + okTransmissions (invocationTrace plan s.answers) ∧
    Advances n s
      (finished (firstException (s.rep + 1#4) plan s.answers) (invocationTrace plan s.answers) rep s)

/-- A step without a call leaves the plan as it is. -/
theorem State.Follows.silent_step {s t : State} {plan : List RadioOp} {silent : Nat}
    (ht : t.Follows plan silent) (hb : s.phase ≠ .idle) (h : advance s = .next t) (hrep : t.rep = s.rep)
    (htrace : t.trace = s.trace) (hans : t.answers = s.answers) : s.Follows plan (silent + 1) := by
  obtain ⟨n, rep, hle, hexact, hcount, hadv⟩ := ht
  have hin := (advance_cases hb h).inputs
  rw [hrep, hans] at hexact hcount hadv
  rw [finished_of_later (made := []) hin (by simp [htrace]) (by simp [hans])] at hadv
  exact ⟨n + 1, rep, by omega, fun hx => by rw [hexact hx]; omega, hcount, .step hb h hadv⟩

/-- A core that has come to the teardown with no exception on record has no call left to plan. -/
theorem follows_nil {s : State} (hp : s.phase = .tdIdle) (hx : s.Records none) (hlen : 2 ≤ s.answers.length) :
    s.Follows [] 0 := by
  match ha : s.answers, hlen with
  | r :: r' :: rs, _ =>
    have hcount : okTransmissions (invocationTrace [] s.answers) = 0 := by rw [ha]; rfl
    exact ⟨2, s.rep, by simp, fun _ => rfl, by rw [hcount]; rfl, advances_teardown hp hx ha _⟩

/-- The state after a call answered ok, where control goes to phase `p`. -/
def proceeded (op : RadioOp) (rs : List RadioAnswer) (p : Phase) (s : State) : State :=
  { answered op .ok rs s with rep := if op.isTransmit then s.rep + 1#4 else s.rep, phase := p }

theorem finished_proceeded {op : RadioOp} {rs : List RadioAnswer} {s : State} (ha : s.answers = .ok :: rs)
    (p : Phase) (x : Option Exception) (calls : List RadioCall) (rep : BitVec 4) :
    finished x calls rep (proceeded op rs p s) = finished x ({ op := op, answer := .ok } :: calls) rep s :=
  finished_of_later (s := s) (t := proceeded op rs p s) (made := [_]) ⟨rfl, rfl, rfl⟩ rfl
    (by simp [ha, proceeded]) x calls rep

/-- The number of the next transmission after a call answered ok. -/
theorem proceeded_attempt (op : RadioOp) (rs : List RadioAnswer) (p : Phase) (s : State) :
    (proceeded op rs p s).rep + 1#4 = if op.isTransmit then s.rep + 1#4 + 1#4 else s.rep + 1#4 := by
  simp only [proceeded]
  split <;> rfl

/-- `REP` counts a transmission answered ok and stays over any other call (10_state.md R22). -/
theorem proceeded_rep {op : RadioOp} {s : State} (hroom : op.isTransmit = true → s.rep < 8#4)
    (rs : List RadioAnswer) (p : Phase) :
    (proceeded op rs p s).rep.toNat = s.rep.toNat + if op.isTransmit then 1 else 0 := by
  cases ht : op.isTransmit
  · simp [proceeded, ht]
  · have hlt := hroom ht
    simp only [proceeded, ht, if_true]
    bv_omega

theorem okTransmissions_cons (c : RadioCall) (calls : List RadioCall) : okTransmissions (c :: calls) =
    (if c.op.isTransmit && (c.answer == .ok) then 1 else 0) + okTransmissions calls := by
  simp only [okTransmissions, List.filter_cons]
  split <;> simp [Nat.add_comm]

/-- A call answered ok goes on with the rest of the plan. -/
theorem State.Follows.ok_call {s : State} {op : RadioOp} {ops : List RadioOp} {silent : Nat} {p : Phase}
    {rs : List RadioAnswer} (ht : (proceeded op rs p s).Follows ops silent) (hb : s.phase ≠ .idle)
    (hroom : op.isTransmit = true → s.rep < 8#4) (ha : s.answers = .ok :: rs)
    (h : advance s = .next (proceeded op rs p s)) : s.Follows (op :: ops) silent := by
  obtain ⟨n, rep, hle, hexact, hcount, hadv⟩ := ht
  have hfirst : firstException ((proceeded op rs p s).rep + 1#4) ops (proceeded op rs p s).answers =
      firstException (s.rep + 1#4) (op :: ops) s.answers := by
    rw [proceeded_attempt, ha]
    rfl
  have htrace : { op := op, answer := .ok } :: invocationTrace ops (proceeded op rs p s).answers =
      invocationTrace (op :: ops) s.answers := by
    rw [ha]
    rfl
  rw [hfirst] at hexact hadv
  rw [finished_proceeded ha, htrace] at hadv
  refine ⟨n + 1, rep, by simp; omega, fun hnone => by rw [hexact hnone]; simp; omega, ?_, .step hb h hadv⟩
  rw [← htrace, okTransmissions_cons, hcount, proceeded_rep hroom]
  simp [Nat.add_assoc]

/-- The first exception taken stays on record. -/
theorem State.Records.raise {s : State} (hx : s.Records none) (e : Exception) : (raise e s).Records (some e) := by
  have hz : s.cause = 0#3 := hx.1
  simp [State.Records, recordCause_of_zero e hz, causeOf, infoOf]

/-- A failed call forces the teardown and is the last of the plan (60_exceptions.md R131). -/
theorem follows_failed_call {s : State} {op : RadioOp} {ops : List RadioOp} {rs : List RadioAnswer}
    (hb : s.phase ≠ .idle) (hheld : s.held = true) (hx : s.Records none) (ha : s.answers = .fail :: rs)
    (hlen : 2 ≤ rs.length) (silent : Nat)
    (h : advance s = .next (raise (op.failure (s.rep + 1#4)) (answered op .fail rs s))) :
    s.Follows (op :: ops) silent := by
  match rs, hlen with
  | r :: r' :: rs, _ =>
    have hphase : (raise (op.failure (s.rep + 1#4)) (answered op .fail (r :: r' :: rs) s)).phase = .tdIdle := by
      rw [raise_of_held _ (by exact hheld)]
    have hrecords := State.Records.raise (s := answered op .fail (r :: r' :: rs) s) hx (op.failure (s.rep + 1#4))
    have hadv := advances_teardown (r := r) (r' := r') (rs := rs) hphase hrecords (by simp) (s.rep + 1#4)
    rw [finished_of_later (s := s) (made := [{ op := op, answer := .fail }]) (by simp) (by simp) (by simp [ha])]
      at hadv
    refine ⟨3, s.rep, by simp; omega, fun hnone => ?_, ?_, .step hb h ?_⟩
    · rw [ha] at hnone; cases hnone
    · rw [ha]; simp [invocationTrace, okTransmissions, RadioOp.isTransmit]
    · rw [ha]; simpa [firstException, invocationTrace] using hadv

/-- What a step of the radio's call does with the answer decides whether the call is the first of the plan. -/
theorem follows_call {s : State} {op : RadioOp} {ops : List RadioOp} {silent : Nat} {p : Phase}
    {k : RadioAnswer → State → State} (hb : s.phase ≠ .idle) (hheld : s.held = true) (hx : s.Records none)
    (hlen : ops.length + 3 ≤ s.answers.length) (hroom : op.isTransmit = true → s.rep < 8#4)
    (hcall : advance s = radioCall op s k)
    (hok : ∀ rs, k .ok (answered op .ok rs s) = proceeded op rs p s)
    (hfail : ∀ rs, k .fail (answered op .fail rs s) =
      raise (op.failure (s.rep + 1#4)) (answered op .fail rs s))
    (hnext : ∀ rs, ops.length + 2 ≤ rs.length → (proceeded op rs p s).Follows ops silent) :
    s.Follows (op :: ops) silent := by
  match ha : s.answers, hlen with
  | .ok :: rs, hlen =>
    exact (hnext rs (by simpa using hlen)).ok_call hb hroom ha (by rw [hcall, radioCall_cons k ha, hok])
  | .fail :: rs, hlen =>
    simp only [List.length_cons] at hlen
    exact follows_failed_call hb hheld hx ha (by omega) silent (by rw [hcall, radioCall_cons k ha, hfail])

/-! ### The phases, from the last to the first -/

/-- The transmissions left in TX: eight without those already answered ok (42_transmission_driver.md R107, R108). -/
theorem follows_tx {n : Nat} {bytes : List Byte} {s : State} (hp : s.phase = .tx) (hheld : s.held = true)
    (hx : s.Records none) (hm : Memory.readBytes s.frame 0 10 = some bytes) (hrep : s.rep.toNat + (n + 1) = 8)
    (hlen : n + 3 ≤ s.answers.length) : s.Follows (List.replicate (n + 1) (.transmitRaw bytes)) 0 := by
  induction n generalizing s with
  | zero =>
    have hroom : s.rep < 8#4 := by bv_omega
    have hlast : s.rep + 1#4 = 8#4 := by bv_omega
    refine follows_call (p := .tdIdle) (by simp [hp]) hheld hx hlen (fun _ => hroom)
      ((advance_tx hp).trans (stepTx_eq hroom hm)) (fun rs => ?_) (fun rs => rfl) fun rs hrs => ?_
    · simp [transmitted, proceeded, repeatCount, RadioOp.isTransmit, hlast]
    · exact follows_nil rfl hx hrs
  | succ n ih =>
    have hroom : s.rep < 8#4 := by bv_omega
    have hmore : s.rep + 1#4 ≠ 8#4 := by bv_omega
    refine follows_call (p := .tx) (by simp [hp]) hheld hx (by simpa using hlen) (fun _ => hroom)
      ((advance_tx hp).trans (stepTx_eq hroom hm)) (fun rs => ?_) (fun rs => rfl) fun rs hrs => ?_
    · simp [transmitted, proceeded, repeatCount, RadioOp.isTransmit, hmore]
    · refine ih rfl hheld hx hm ?_ (by simpa [proceeded] using hrs)
      simp only [proceeded, RadioOp.isTransmit, if_true]
      bv_omega

/-- A core in a phase before TX: a teardown is owed, nothing is on record and the payload is in `PAY`. -/
structure State.Ready (s : State) (payload : List Byte) : Prop where
  held : s.held = true
  records : s.Records none
  rep : s.rep = 0#4
  pay : Memory.readBytes s.pay 0 5 = some payload

/-- From phase `p` on, with the payload in `PAY`, an invocation plans the calls `ops`. -/
def Phase.Plans (payload : List Byte) (p : Phase) (ops : List RadioOp) : Prop :=
  ∀ s : State, s.Ready payload → s.phase = p → ops.length + 2 ≤ s.answers.length → s.Follows ops 1

/-- FRAME makes no call, and eight transmissions of its ten bytes follow it. -/
theorem plans_frame (payload : List Byte) :
    Phase.frame.Plans payload (List.replicate 8 (.transmitRaw (spacer ++ payload))) := by
  intro s h hp hlen
  have hm := readBytes_framed (s := s) (readBytes_length h.pay)
  have htx := follows_tx (n := 7) (s := framed payload s) rfl h.held h.records hm (by simp [framed, h.rep]) hlen
  exact htx.silent_step (by simp [hp]) ((advance_frame hp).trans (stepFrame_eq h.pay)) rfl rfl rfl

/-- The call of a configuration row is no transmission, and the row's index is that of its exception
(60_exceptions.md R141). -/
theorem configRow_failure {s : State} {op : RadioOp} {k : BitVec 4} {p : Phase} (h : configRow s = some (op, k, p))
    (attempt : BitVec 4) : op.isTransmit = false ∧ op.failure attempt = .radioConfigurationError k := by
  unfold configRow at h
  cases hp : s.phase <;> simp only [hp, Option.map_eq_some_iff, Option.some.injEq, Prod.mk.injEq, reduceCtorEq] at h
  case cfgFreq => obtain ⟨hp', -, rfl, rfl, -⟩ := h; exact ⟨rfl, rfl⟩
  all_goals obtain ⟨rfl, rfl, -⟩ := h; exact ⟨rfl, rfl⟩

/-- A configuration phase puts its call before the plan of the phase that follows. -/
theorem follows_config {s : State} {payload : List Byte} {op : RadioOp} {k : BitVec 4} {p : Phase}
    {ops : List RadioOp} (h : s.Ready payload) (hr : configRow s = some (op, k, p))
    (hlen : ops.length + 3 ≤ s.answers.length) (hnext : p.Plans payload ops) : s.Follows (op :: ops) 1 := by
  obtain ⟨hb, -⟩ := configRow_phases hr
  obtain ⟨htransmit, hfailure⟩ := configRow_failure hr (s.rep + 1#4)
  have hready (rs : List RadioAnswer) : (proceeded op rs p s).Ready payload :=
    ⟨h.held, h.records, by simp [proceeded, htransmit, h.rep], h.pay⟩
  refine follows_call hb h.held h.records hlen (by simp [htransmit]) (advance_configRow hr) (fun rs => ?ok)
    (fun rs => ?fail) fun rs hrs => hnext _ (hready rs) rfl hrs
  case ok => simp [proceeded, htransmit]
  case fail => simp [hfailure]

theorem plans_config {payload : List Byte} {op : RadioOp} {k : BitVec 4} {p q : Phase} {ops : List RadioOp}
    (hrow : ∀ s : State, s.phase = p → configRow s = some (op, k, q)) (hnext : q.Plans payload ops) :
    p.Plans payload (op :: ops) :=
  fun s h hp hlen => follows_config h (hrow s hp) hlen hnext

/-- From CFG_FREQ on the plan is the whole of 42_transmission_driver.md R112. -/
theorem follows_cfgFreq {s : State} {payload : List Byte} {hp : Bool} (h : s.Ready payload)
    (hphase : s.phase = .cfgFreq) (hhp : s.hp = some hp)
    (hlen : (plannedCalls s.cfg.freqHz hp (spacer ++ payload)).length + 2 ≤ s.answers.length) :
    s.Follows (plannedCalls s.cfg.freqHz hp (spacer ++ payload)) 1 := by
  have hmod : Phase.cfgMod.Plans payload _ :=
    plans_config (fun _ => configRow_cfgMod) <| plans_config (fun _ => configRow_cfgRate) <|
    plans_config (fun _ => configRow_cfgLen) <| plans_config (fun _ => configRow_cfgSync) <| plans_frame payload
  have hrow := configRow_cfgFreq hphase hhp
  cases hp with
  | false => exact follows_config h hrow hlen hmod
  | true => exact follows_config h hrow hlen (plans_config (fun _ => configRow_cfgPower) hmod)

/-- A command in BUILD has the payload in `PAY` one step later, and follows the plan from there. -/
theorem follows_build {s : State} {hp : Bool} {a b c : Nibble} (hphase : s.phase = .build) (hhp : s.hp = some hp)
    (ha : s.sw8 = some a) (hb : s.sw9 = some b) (hc : s.cmd = some c) (hx : s.Records none) (hrep : s.rep = 0#4)
    (hlen : (plannedCalls s.cfg.freqHz hp (spacer ++ peEncode s.cfg.padPolicy a b c)).length + 2 ≤
      s.answers.length) :
    s.Follows (plannedCalls s.cfg.freqHz hp (spacer ++ peEncode s.cfg.padPolicy a b c)) 2 := by
  have hready : (built a b c s).Ready (peEncode s.cfg.padPolicy a b c) :=
    ⟨rfl, hx, hrep, readBytes_writeBytes (peEncode s.cfg.padPolicy a b c) s.pay 0⟩
  have hcfg := follows_cfgFreq hready rfl hhp hlen
  exact hcfg.silent_step (by simp [hphase]) ((advance_build hphase).trans (stepBuild_eq ha hb hc)) rfl rfl rfl

/-- An accepted command of the profile follows the plan, with DECODE, BUILD and FRAME as its steps without a call. -/
theorem follows_accept {s : State} {hp : Bool} {a b c : Nibble} (hv : validCmd s.cfg.profile c = true)
    (hlen : (plannedCalls s.cfg.freqHz hp (spacer ++ peEncode s.cfg.padPolicy a b c)).length + 2 ≤
      s.answers.length) :
    (accept hp a b c s).Follows (plannedCalls s.cfg.freqHz hp (spacer ++ peEncode s.cfg.padPolicy a b c)) 3 := by
  have hbuild := follows_build (s := { accept hp a b c s with phase := .build })
    rfl rfl rfl rfl rfl ⟨rfl, rfl⟩ rfl hlen
  exact hbuild.silent_step (by simp) ((advance_decode rfl).trans (stepDecode_valid rfl hv)) rfl rfl rfl

/-! ### The statements -/

theorem plannedCalls_length (freqHz : Nat) (hp : Bool) (frame : List Byte) :
    (plannedCalls freqHz hp frame).length = 13 + hp.toNat := by
  cases hp <;> rfl

theorem firstException_all_ok (plan : List RadioOp) (rs : List RadioAnswer) (attempt : BitVec 4) :
    firstException attempt plan (List.replicate (plan.length + 2) .ok ++ rs) = none := by
  induction plan generalizing attempt with
  | nil => rfl
  | cons op ops ih => exact ih _

theorem invocationTrace_all_ok (plan : List RadioOp) (rs : List RadioAnswer) :
    invocationTrace plan (List.replicate (plan.length + 2) .ok ++ rs) =
      (plan ++ [RadioOp.setIdle, RadioOp.cleanup]).map fun op => { op := op, answer := .ok } := by
  induction plan with
  | nil => rfl
  | cons op ops ih => exact congrArg _ ih

/-- With every call answered ok all eight transmissions count (42_transmission_driver.md R108). -/
theorem okTransmissions_plannedCalls (freqHz : Nat) (hp : Bool) (frame : List Byte) :
    okTransmissions ((plannedCalls freqHz hp frame ++ [RadioOp.setIdle, RadioOp.cleanup]).map fun op =>
      { op := op, answer := .ok }) = 8 := by
  cases hp <;> rfl

theorem execTimes_idle (i : Instr) (n : Nat) {s : State} (h : s.phase = .idle) :
    execTimes i (n + 1) s = execTimes i n (accept i.hp i.sw8 i.sw9 i.cmd s) := by
  simp only [execTimes, exec_idle i h]

/-- Settles O50: accepted, the command follows its plan; with every call answered ok the exception is none, and so
the number of steps exact. -/
theorem everyCommandCompletes : Obligations.EveryCommandCompletes := by
  intro i s rs frame hp hv ha hframe
  have hlen := plannedCalls_length s.cfg.freqHz i.hp frame
  have ha : s.answers = List.replicate ((plannedCalls s.cfg.freqHz i.hp frame).length + 2) .ok ++ rs := by
    rw [ha, hlen, Nat.add_right_comm]
  have hfollows : (accept i.hp i.sw8 i.sw9 i.cmd s).Follows (plannedCalls s.cfg.freqHz i.hp frame) 3 := by
    subst hframe
    exact follows_accept hv (by rw [ha, List.length_append, List.length_replicate]; exact Nat.le_add_right _ _)
  obtain ⟨n, rep, -, hexact, hcount, hadv⟩ := hfollows
  rw [accept_answers, ha] at hexact hcount hadv
  rw [firstException_all_ok] at hexact hadv
  rw [invocationTrace_all_ok] at hcount hadv
  have hn : 19 + i.hp.toNat = n + 1 := by rw [hexact rfl, hlen]; omega
  have hrep : rep = 8#4 := BitVec.eq_of_toNat_eq (by rw [hcount, okTransmissions_plannedCalls]; rfl)
  rw [hn, execTimes_idle i n hp, hadv.execTimes i, hrep]
  simp [finished, ha, causeOf, infoOf]

/-- The code of a command that exists under the profile is valid: its word decodes. -/
theorem validCmd_of_wf {p : Profile} {i : Instr} (h : i.wf p = true) : validCmd p i.cmd = true := by
  cases hv : validCmd p i.cmd with
  | true => rfl
  | false =>
    have hreject := decode_invalid (p := p) (w := encode i) (by simpa [encode] using hv)
    simp [decode_encode p i h] at hreject

/-- Settles O51: the first step takes the request, and the accepted command follows its plan. -/
theorem everyInvocationFollowsThePlan : Obligations.EveryInvocationFollowsThePlan := by
  rintro i s ws plan hp hr hq hwf rfl hlen
  have hfetch : step s = .next (accept i.hp i.sw8 i.sw9 i.cmd { s with requests := ws }) := by
    rw [step_fetch hr hp hq, runWord_idle _ (by exact hp)]
    simp [encode]
  obtain ⟨n, rep, hle, -, hcount, hadv⟩ := follows_accept (s := { s with requests := ws }) (hp := i.hp)
    (a := i.sw8) (b := i.sw9) (c := i.cmd) (validCmd_of_wf hwf) hlen
  have hle20 : n + 1 ≤ 20 := by
    rw [plannedCalls_length] at hle
    have := i.hp.toNat_le
    omega
  exact ⟨n + 1, _, hle20, (run_succ n hfetch).trans (hadv.run hr), ⟨rfl, rfl, rfl⟩, rfl, rfl, rfl, rfl, rfl,
    hcount.trans (Nat.zero_add _)⟩

end Sys2Proof.Machine

/-! The seven commands (43_commands.md R115 to R122): what the spec states of one command follows from its fields,
the profiles it exists in and its worked example. -/

namespace Sys2Proof.Machine

/-! ### One command -/

/-- SEND with the command's own value, accepted when idle, and passed by DECODE because its code is valid wherever
the command exists. -/
theorem commandFacts_of_fields {mk : Bool → Nibble → Nibble → Instr} {c : Nibble} {chips : BitVec 12}
    {profiles : List Profile} {packet : BitVec 39} {zero raw : List Byte}
    (hfields : ∀ hp a b, (mk hp a b).hp = hp ∧ (mk hp a b).sw8 = a ∧ (mk hp a b).sw9 = b ∧ (mk hp a b).cmd = c)
    (hwf : ∀ p hp a b, (mk hp a b).wf p = true ↔ p ∈ profiles)
    (hchips : seEncNib c = strN chips)
    (hpacket : (peBuild 0b0000#4 0b0011#4 c).toList = strN packet)
    (hzero : peEncode .zeroPad 0b0000#4 0b0011#4 c = zero)
    (hraw : peEncode .raw7 0b0000#4 0b0011#4 c = raw) :
    CommandFacts mk c chips profiles packet zero raw where
  word hp a b := by
    obtain ⟨hhp, ha, hb, hc⟩ := hfields hp a b
    rw [encode, hhp, ha, hb, hc]
  semantics hp a b s := by
    obtain ⟨hhp, ha, hb, hc⟩ := hfields hp a b
    rw [exec_eq_send, hhp, ha, hb, hc]
  chips := hchips
  packet := hpacket
  zero := hzero
  raw := hraw
  accepted hp a b s hidle := by
    obtain ⟨hhp, ha, hb, hc⟩ := hfields hp a b
    refine ⟨_, exec_idle (mk hp a b) hidle, accept_phase .., ?_⟩
    rw [accept_hp, accept_sw8, accept_sw9, accept_cmd, hhp, ha, hb, hc]
    exact ⟨rfl, rfl, rfl, rfl⟩
  exists_in := hwf
  passed hp a b s hphase hcmd hprofile := by
    obtain ⟨-, -, -, hc⟩ := hfields hp a b
    obtain ⟨hpass, -⟩ := decodePassesOrRejects (mk hp a b) s c hphase hcmd
    exact hpass (hc ▸ validCmd_of_wf ((hwf s.cfg.profile hp a b).mpr hprofile))

/-! ### OFF, SLOW, MEDIUM, FAST (43_commands.md R116 to R119) -/

theorem mem_single_dual (p : Profile) : p ∈ [Profile.single, Profile.dual] := by
  cases p with
  | single => exact List.mem_cons_self
  | dual => exact List.mem_cons_of_mem _ List.mem_cons_self

/-- Settles O13: the four differ in their value only, and exist under every profile. -/
theorem offAndSpeedCommands : Obligations.OffAndSpeedCommands := by
  refine ⟨?off, ?slow, ?medium, ?fast⟩
  all_goals
    exact commandFacts_of_fields (fun _ _ _ => ⟨rfl, rfl, rfl, rfl⟩)
      (fun p _ _ _ => iff_of_true rfl (mem_single_dual p)) (by decide) (by decide) (by decide) (by decide)

/-! ### LIGHT, LIGHT1, LIGHT2 (43_commands.md R120 to R122) -/

/-- Settles O14: LIGHT and LIGHT1 are SEND with one value, so the code passes under the profile of either; the code
of LIGHT2 is not valid under `SINGLE`, and DECODE rejects it. -/
theorem lightCommands : Obligations.LightCommands := by
  refine ⟨?light, ?light1, ?light2, ?oneEncoding, ?passed, ?rejected⟩
  case light | light1 | light2 =>
    exact commandFacts_of_fields (fun _ _ _ => ⟨rfl, rfl, rfl, rfl⟩)
      (fun _ _ _ _ => beq_iff_eq.trans List.mem_singleton.symm)
      (by decide) (by decide) (by decide) (by decide)
  case oneEncoding =>
    exact fun hp a b s => (exec_eq_send (.light hp a b) s).trans (exec_eq_send (.light1 hp a b) s).symm
  case passed =>
    intro hp a b s hphase hcmd
    obtain ⟨hpass, -⟩ := decodePassesOrRejects (.light hp a b) s _ hphase hcmd
    refine hpass ?_
    cases s.cfg.profile with
    | single => exact validCmd_of_wf (i := .light hp a b) rfl
    | dual => exact validCmd_of_wf (i := .light1 hp a b) rfl
  case rejected =>
    intro hp a b s hphase hcmd hprofile hheld hcause
    obtain ⟨-, hreject⟩ := decodePassesOrRejects (.light2 hp a b) s _ hphase hcmd
    have hinvalid : validCmd s.cfg.profile 0b1001#4 = false := by rw [hprofile]; rfl
    exact ⟨_, hreject hinvalid hheld hcause, rfl, rfl, ⟨rfl, rfl, rfl⟩, rfl⟩

end Sys2Proof.Machine

/-! Exceptions (60_exceptions.md): what taking one leaves, which calls raise it, where an invocation can end, and a
call that is never answered. -/

namespace Sys2Proof.Machine

/-! ### Taking an exception (60_exceptions.md R123, R130, R132) -/

/-- Settles O24: the table of codes, and `EINFO` is the constructor's argument. -/
theorem exceptionCodesAndInformation : Obligations.ExceptionCodesAndInformation :=
  fun _ => ⟨⟨rfl, rfl⟩, ⟨rfl, rfl⟩, ⟨rfl, rfl⟩, ⟨rfl, rfl⟩⟩

/-- Everything recording an exception can do: `CAUSE` and `EINFO` for a first exception, nothing else. -/
theorem recordCause_eq (e : Exception) (s : State) : recordCause e s = { s with
    cause := if s.cause = 0#3 then e.code else s.cause
    einfo := if s.cause = 0#3 then e.info else s.einfo } := by
  rcases recordCause_cases e s with ⟨hz, hr⟩ | ⟨hn, hr⟩
  · rw [hr, if_pos hz, if_pos hz]
  · rw [hr, if_neg hn, if_neg hn]

/-- Settles O25: the exception is recorded, and `HELD` decides between the teardown and completion. -/
theorem raiseRecordsAndDiverts : Obligations.RaiseRecordsAndDiverts := by
  rintro e s c n rfl rfl
  refine ⟨fun hheld => ?_, fun hheld => ?_⟩
  · rw [raise_of_held e hheld, recordCause_eq]
  · rw [raise_of_not_held e hheld, recordCause_eq]
    rfl

/-! ### Answered calls (60_exceptions.md R125 to R127, R132, R141) -/

/-- A phase that calls the radio is a phase of an invocation in progress. -/
theorem phase_ne_idle_of_phaseCall {s : State} {op : RadioOp} (h : phaseCall s = some op) : s.phase ≠ .idle := by
  intro hp
  simp [phaseCall, hp] at h

theorem phaseCall_tdIdle {s : State} (h : s.phase = .tdIdle) : phaseCall s = some .setIdle := by
  simp [phaseCall, h]

theorem phaseCall_tdCleanup {s : State} (h : s.phase = .tdCleanup) : phaseCall s = some .cleanup := by
  simp [phaseCall, h]

/-- The call of the phase ends the trace with its answer, whatever the answer leads to. -/
theorem DriverStep.trace_of_answer {s t : State} (h : DriverStep s t) {op : RadioOp} {r : RadioAnswer}
    {rs : List RadioAnswer} (hc : phaseCall s = some op) (ha : s.answers = r :: rs) :
    t.trace = s.trace ++ [{ op := op, answer := r }] := by
  rcases h.radio with ⟨hnone, -⟩ | ⟨op', -, hnil, -⟩ | ⟨op', r', hc', ha', htrace, -⟩
  · simp [hc] at hnone
  · simp [ha] at hnil
  · obtain rfl : op = op' := by simpa [hc] using hc'
    obtain ⟨rfl, -⟩ : r = r' ∧ rs = t.answers := by simpa [ha] using ha'
    exact htrace

/-- Settles O26: a step changes the report only where no cause is recorded, and an answered call is in the trace. -/
theorem firstExceptionWins : Obligations.FirstExceptionWins := by
  intro i s t hb hcause h
  obtain ⟨-, hd⟩ := (exec_cases h).resolve_left fun hi => hb hi.1
  obtain ⟨hc, he⟩ := hd.report.resolve_right fun hfirst => hcause hfirst.1
  exact ⟨hc, he, fun _ hp ha => hd.trace_of_answer (phaseCall_tdIdle hp) ha,
    fun _ hp ha => hd.trace_of_answer (phaseCall_tdCleanup hp) ha⟩

/-- Outside the teardown a failed call raises the exception of the call. -/
theorem DriverStep.eq_raise_of_fail {s t : State} (h : DriverStep s t) {op : RadioOp} {rs : List RadioAnswer}
    (hc : phaseCall s = some op) (hidle : s.phase ≠ .tdIdle) (hcleanup : s.phase ≠ .tdCleanup)
    (ha : s.answers = .fail :: rs) : t = raise (op.failure (s.rep + 1#4)) (answered op .fail rs s) := by
  cases h with
  | waits _ hnil => simp [ha] at hnil
  | passed hp | rejected hp | built hp | framed hp => simp [phaseCall, hp] at hc
  | configured _ hok => simp [ha] at hok
  | @configFailed op' k p rs' hr hfail =>
    obtain rfl : op' = op := by simpa [configRow_phaseCall hr] using hc
    obtain rfl : rs = rs' := by simpa [ha] using hfail
    obtain ⟨-, hfailure⟩ := configRow_failure hr (s.rep + 1#4)
    rw [hfailure]
  | @sent bytes r rs' hp hr hm hans =>
    obtain rfl : .transmitRaw bytes = op := by simpa [phaseCall, hp, hm] using hc
    obtain ⟨rfl, rfl⟩ : .fail = r ∧ rs = rs' := by simpa [ha] using hans
    rfl
  | idled hp => exact absurd hp hidle
  | cleaned hp => exact absurd hp hcleanup

/-- Settles O27: the exception of the call is the first one, and a teardown is owed. -/
theorem failedCallForcesTeardown : Obligations.FailedCallForcesTeardown := by
  intro i s t op rs hc hidle hcleanup ha hheld hcause h
  obtain ⟨-, hd⟩ := (exec_cases h).resolve_left fun hi => phase_ne_idle_of_phaseCall hc hi.1
  have hraise := hd.eq_raise_of_fail hc hidle hcleanup ha
  rw [raise_of_held _ (by exact hheld), recordCause_of_zero _ (by exact hcause)] at hraise
  subst hraise
  exact ⟨rfl, rfl, rfl, rfl, rfl, rfl⟩

/-! ### The ends of an invocation (60_exceptions.md R124, R133) -/

/-- DECODE rejects a command that is not in the profile's set, in one step of the machine. -/
theorem step_illegal {s : State} {c : Nibble} (hr : s.resetIn = false) (hp : s.phase = .decode)
    (hc : s.cmd = some c) (hv : validCmd s.cfg.profile c = false) :
    step s = .next (raise (.invalidCommand c) s) := by
  rw [step_busy hr (by simp [hp]), advance_decode hp, stepDecode_illegal hc hv]

/-- Settles O28: the word is accepted, and DECODE rejects it with no teardown owed and no cause recorded. -/
theorem invalidCommandMakesNoRadioCall : Obligations.InvalidCommandMakesNoRadioCall := by
  intro s w ws hp hr hq hv
  have hfetch : step s = .next (accept (reqHp w) (reqSw8 w) (reqSw9 w) (reqCmd w) { s with requests := ws }) := by
    rw [step_fetch hr hp hq, runWord_idle w (by exact hp)]
  refine (run_succ 1 hfetch).trans ((run_succ 0 (step_illegal (by exact hr) rfl rfl (by exact hv))).trans ?_)
  rw [raise_of_not_held _ rfl, recordCause_of_zero _ rfl]
  rfl

/-- While a teardown is owed an exception does not end the invocation. -/
theorem raise_phase_ne_idle (e : Exception) {s : State} (h : s.held = true) : (raise e s).phase ≠ .idle := by
  simp [raise_of_held e h]

theorem transmitted_phase_ne_idle (r : RadioAnswer) {s : State} (h : s.held = true) :
    (transmitted r s).phase ≠ .idle := by
  cases r with
  | ok => simp only [transmitted]; split <;> simp
  | fail => exact raise_phase_ne_idle _ h

/-- An invocation ends in the step that rejects its command, or in the one in which `cleanup` is answered. -/
theorem DriverStep.ends {s t : State} (h : DriverStep s t) (hs : s.Running) (hi : t.phase = .idle) :
    (s.phase = .decode ∧ ∃ c, t = raise (.invalidCommand c) s) ∨
      (s.phase = .tdCleanup ∧ ∃ r rs, s.answers = r :: rs) := by
  cases h with
  | waits => exact absurd hi hs.phase
  | rejected hp => exact .inl ⟨hp, _, rfl⟩
  | cleaned hp ha => exact .inr ⟨hp, _, _, ha⟩
  | passed | built | framed | idled => cases hi
  | configured hr =>
    obtain ⟨-, -, -, -, -, -, -, hp, -⟩ := configRow_phases hr
    exact absurd hi hp
  | configFailed hr =>
    obtain ⟨⟨howes, -⟩, -⟩ := configRow_owes hr
    exact absurd hi (raise_phase_ne_idle _ (hs.held.trans howes))
  | sent hp =>
    have howes : s.phase.owesTeardown = true := by rw [hp]; rfl
    exact absurd hi (transmitted_phase_ne_idle _ (hs.held.trans howes))

/-- Settles O29: only completion sets DONE, and the two ends of an invocation are the two cases. -/
theorem doneRisesOnlyAfterCleanup : Obligations.DoneRisesOnlyAfterCleanup := by
  intro s t hs h hdone hdone'
  rcases step_cases h with ⟨-, -, rfl⟩ | ⟨-, -, -, rfl⟩ | ⟨w, ws, -, hp, -, hw⟩ | ⟨-, hb, hd⟩
  · cases hdone'
  · simp [hdone] at hdone'
  · simp [accept_of_fetch hp hw] at hdone'
  · have hi : t.phase = .idle := by
      by_contra hn
      obtain ⟨-, hkept, -⟩ := (hd.keeps_of_busy hn).flags
      simp [hkept, hdone] at hdone'
    refine ⟨?report, ?ends⟩
    case report =>
      obtain ⟨u, -, rfl⟩ := hd.completes hi
      exact ⟨rfl, rfl, rfl⟩
    case ends =>
      have hrun := hs.running hb
      rcases hd.ends hrun hi with ⟨hp, c, rfl⟩ | ⟨hp, r, rs, ha⟩
      · obtain ⟨-, hcause⟩ := hrun.progress_at hp
        exact .inr ⟨hp, raise_trace _ _, by rw [raise_cause, recordCause_of_zero _ hcause]; rfl⟩
      · exact .inl ⟨r, hp, hd.trace_of_answer (phaseCall_tdCleanup hp) ha⟩

/-! ### A call that is never answered (60_exceptions.md R144) -/

/-- A phase whose call finds no answer waits: its registers are read, and no other rule applies. -/
theorem advance_awaiting {s : State} {op : RadioOp} (hc : phaseCall s = some op) (ha : s.answers = [])
    (hhp : s.phase = .cfgFreq → s.hp ≠ none) (hrep : s.phase = .tx → s.rep < 8#4) :
    advance s = .next (awaiting op s) := by
  rcases advance_outcome s with ⟨t, ht⟩ | ⟨f, -, hf⟩
  · rcases (advance_cases (phase_ne_idle_of_phaseCall hc) ht).radio with ⟨hnone, -⟩ | ⟨op', hc', -, rfl⟩ |
      ⟨op', r, -, hans, -⟩
    · simp [hc] at hnone
    · obtain rfl : op = op' := by simpa [hc] using hc'
      exact ht
    · simp [ha] at hans
  · cases hf with
    | cmd hp => rcases hp with hp | hp <;> simp [phaseCall, hp] at hc
    | sw8 hp | sw9 hp | pay hp => simp [phaseCall, hp] at hc
    | hp hp hn => exact absurd hn (hhp hp)
    | frame hp hn => simp [phaseCall, hp, hn] at hc
    | rep hp hn => exact absurd (hrep hp) hn

/-- A state that steps to itself is where every run from it stays. -/
theorem run_of_step_self {s : State} (h : step s = .next s) (n : Nat) :
    Host.Core.run Sys2Proof.core n s = .next s := by
  induction n with
  | zero => rfl
  | succ n ih => rw [run_succ n h, ih]

/-- Settles O42: the waiting core has the same call outstanding and still no answer, so it makes the same step. -/
theorem unansweredCallHangsTheCore : Obligations.UnansweredCallHangsTheCore := by
  intro i s op n hc ha hr hhp hrep
  have hb : s.phase ≠ .idle := phase_ne_idle_of_phaseCall hc
  have hwait : advance s = .next (awaiting op s) := advance_awaiting hc ha hhp hrep
  have hstay : advance (awaiting op s) = .next (awaiting op s) :=
    advance_awaiting (s := awaiting op s) hc ha hhp hrep
  refine ⟨(exec_busy i hb).trans hwait, ?_⟩
  rw [run_succ n ((step_busy hr hb).trans hwait)]
  exact run_of_step_self ((step_busy (s := awaiting op s) hr hb).trans hstay) n

end Sys2Proof.Machine

/-! Reset and the end of a run (70_reset_and_hazards.md): where the reset input is taken, and the state in which
nothing more happens. -/

namespace Sys2Proof.Machine

/-! ### The reset input (70_reset_and_hazards.md R147, R149) -/

theorem stepReset_idle {s : State} (h : s.phase = .idle) : stepReset s = .next (applyReset s) := if_pos h

theorem stepReset_busy {s : State} (h : s.phase ≠ .idle) : stepReset s = .refused .resetWhileBusy := if_neg h

/-- Settles O40: an asserted reset input is looked at before the presented request, and the phase decides. -/
theorem resetIsTakenInIdleOnly : Obligations.ResetIsTakenInIdleOnly := by
  intro s hr
  have hstep : step s = stepReset s := step_reset hr
  exact ⟨fun h => ⟨applyReset s, hstep.trans (stepReset_idle h), rfl⟩, fun h => hstep.trans (stepReset_busy h)⟩

/-! ### An ended run (70_reset_and_hazards.md R166) -/

/-- An ended run with nothing presented and no reset waits where it is. -/
theorem State.Ended.step_self {s : State} (h : s.Ended) (hq : s.requests = []) (hr : s.resetIn = false) :
    step s = .next s := by
  obtain ⟨hidle, -, -⟩ := h
  exact step_wait hr hidle hq

theorem State.Ended.busy_ne_true {s : State} (h : s.Ended) : s.busy ≠ true := by
  obtain ⟨-, -, hbusy⟩ := h
  simp [hbusy]

/-- Settles O49: an ended run steps to itself, and `BUSY` is 0 at the end. -/
theorem endedRunStays : Obligations.EndedRunStays :=
  ⟨fun _ n hend hq hr => run_of_step_self (hend.step_self hq hr) n,
    fun _ _ hbusy hend => hend.busy_ne_true hbusy⟩

end Sys2Proof.Machine
